-- ==== Sys2Proof/Word.lean ====
section
/-! DEFINITION. The words FETE's rules speak of: 32-bit register values, 20-bit byte offsets and 16-bit payload elements (00_scope.md R5, R6; 20_memory.md R41). -/

namespace Sys2Proof

/-- A 32-bit register value or command word (20_memory.md R41, 30_encoding.md R70). -/
abbrev Word := BitVec 32

/-- A 16-bit tag word, length or boundary (00_scope.md R5). -/
abbrev Half := BitVec 16

/-- A 16-bit payload element, a bit pattern that is only copied and compared with zero (00_scope.md R6). -/
abbrev Elem := BitVec 16

/-- A byte offset on the slave port (20_memory.md R41). -/
abbrev Offset := BitVec 20

end Sys2Proof
end

