-- ==== Sys2Proof/Syntax.lean ====
section
/-! DEFINITION. The instructions of FETE: one constructor per row of spec/opcode_table.json. -/

namespace Sys2Proof

/-- The four commands of 30_encoding.md R71. A command has no operand fields (R70): its operands are
the registers it reads. -/
inductive Instr where
  /-- `NOP`, 40_control.md R82. -/
  | nop
  /-- `COMMIT`, 40_control.md R84. -/
  | commit
  /-- `PROCESS`, 41_engine.md R96. -/
  | process
  /-- `SOFT_RESET`, 40_control.md R86. -/
  | softReset
  deriving DecidableEq, Repr

end Sys2Proof
end

