-- ==== Sys2Proof/WellFormed.lean ====
section
/-! DEFINITION. Which commands and which command words are well formed (30_encoding.md R70 to R72). -/

namespace Sys2Proof

/-- Every command is well formed: a command word has no operand, immediate or mode field that could
hold an illegal value (30_encoding.md R70). -/
def Instr.wellFormed : Instr → Bool
  | .nop => true
  | .commit => true
  | .process => true
  | .softReset => true

/-- The four command words of 30_encoding.md R71, as the table lists them. -/
def commandWords : List Word := [0x00000000#32, 0x00000001#32, 0x00000002#32, 0x0000000F#32]

/-- A command word is well formed when all its 32 bits match one of the four command words
(30_encoding.md R71); every other word is illegal (R72). -/
def wordWellFormed (w : Word) : Bool := commandWords.contains w

end Sys2Proof
end

