-- ==== Sys2Proof/Decode.lean ====
section
/-! DEFINITION. The command decoder, total on every 32-bit word, and the encoder (30_encoding.md R70 to R72). -/

namespace Sys2Proof

/-- Why a word selects no command (30_encoding.md R72). -/
inductive DecodeError where
  /-- The `MBZ` field is not zero. -/
  | mbzNonzero
  /-- The opcode `op` is one of the reserved values 0x3 to 0xE. -/
  | reservedOpcode (op : BitVec 4)
  deriving DecidableEq, Repr

/-- The field `OP`, bits [3:0] (30_encoding.md R70). -/
def opField (w : Word) : BitVec 4 := w.extractLsb' 0 4

/-- The field `MBZ`, bits [31:4] (30_encoding.md R70). -/
def mbzField (w : Word) : BitVec 28 := w.extractLsb' 4 28

/-- The opcode map of 30_encoding.md R71. -/
def decodeOp (op : BitVec 4) : Except DecodeError Instr :=
  if op = 0x0#4 then .ok .nop
  else if op = 0x1#4 then .ok .commit
  else if op = 0x2#4 then .ok .process
  else if op = 0xF#4 then .ok .softReset
  else .error (.reservedOpcode op)

/-- The command a word selects, or the reason it is illegal (30_encoding.md R70 to R72). -/
def decode (w : Word) : Except DecodeError Instr :=
  if mbzField w = 0#28 then decodeOp (opField w) else .error .mbzNonzero

/-- The opcode of a command (30_encoding.md R71). -/
def encodeOp : Instr → BitVec 4
  | .nop => 0x0#4
  | .commit => 0x1#4
  | .process => 0x2#4
  | .softReset => 0xF#4

/-- The command word of a command: `MBZ` zero above the opcode (30_encoding.md R70, R71). -/
def encode (i : Instr) : Word := 0#28 ++ encodeOp i

/-- The instruction the decoder reads from a word numbered as spec/opcode_table.json numbers it. A
command is one 32-bit word (30_encoding.md R70), so a number that does not fit selects nothing. -/
def decodeTableWord (nbits w : Nat) : Option Instr :=
  if w % 2 ^ nbits < 2 ^ 32 then (decode (BitVec.ofNat 32 (w % 2 ^ nbits))).toOption else none

end Sys2Proof
end

