-- ==== Sys2Proof/Config.lean ====
section
/-! DEFINITION. What an implementation of FETE fixes, and the one free value of the spec (00_scope.md R5, 93_implementation_defined.md I1 and I3). -/

namespace Sys2Proof.Config

/-- `NMAX`, the fixed maximum layer count (00_scope.md R5). -/
def nmax : Nat := 32

/-- The least `BUF_BITS` the spec permits (00_scope.md R5); the most, 65535, is what 16 bits hold. -/
def minBufBits : Nat := 640

/-- The capacity `State.reset` is built with. DESIGN CHOICE (log entry 1): the spec leaves `BUF_BITS`
open between 640 and 65535, so the capacity is a field of `State` and statements quantify over it;
only the one state `State.reset` names this value. -/
def resetBufBits : Half := 640#16

/-- FREE VALUE (log entry 2; 70_reset_and_hazards.md R145, 93_implementation_defined.md I1): the
unspecified value that `IN_BUF[j]` holds after the hardware reset number `n`, until it is written.
It has no body, so no proof can learn a value of it. -/
opaque inBufAfterRst (n j : Nat) : Elem

end Sys2Proof.Config
end

