-- ==== Sys2Proof/Machine/State.lean ====
section
/-! DEFINITION. The state of FETE, its named values, the host's accesses, the reasons a step can stop, and the state after reset (10_state.md R13, 70_reset_and_hazards.md R144). -/

namespace Sys2Proof.Machine

/-- The truncation rule `CTRL.MODE` selects (10_state.md R16). -/
inductive Mode where
  | layered
  | individual
  deriving DecidableEq, Repr

/-- A tag vocabulary, selected by `CTRL.IFMT` or `CTRL.OFMT` (30_encoding.md R60). -/
inductive Format where
  | word
  | byte
  deriving DecidableEq, Repr

/-- A frame's symbolic tag (00_scope.md R10). -/
inductive Tag where
  | sync
  | fer
  deriving DecidableEq, Repr

/-- The codes `STATUS.ERR` can hold; the reserved codes are never produced (30_encoding.md R73). -/
inductive ErrCode where
  | ok
  | cfgBoundZero
  | cfgBoundOrder
  | cfgBoundCap
  | lenMisaligned
  | notConfigured
  | illegalCmd
  deriving DecidableEq, Repr

/-- The fields of `CTRL`; its other bits are hard-wired to 0 (10_state.md R14). -/
structure Ctrl where
  mode : Mode
  ifmt : Format
  ofmt : Format
  nm1  : BitVec 5
  deriving DecidableEq, Repr

/-- The fields of `STATUS`; its other bits are hard-wired to 0 (10_state.md R29). -/
structure Status where
  cfgValid   : Bool
  done       : Bool
  fatal      : Bool
  err        : ErrCode
  sanitized  : Bool
  nodataIn   : Bool
  nodataOut  : Bool
  trunc      : Bool
  firstTrunc : BitVec 5
  deriving DecidableEq, Repr

/-- A payload buffer: the listed elements with their indices, indices strictly rising. What an
unlisted element reads as is said by the reads of Machine/Ops.lean (log entry 12). -/
abbrev Buf := List (Nat × Elem)

/-- What the world outside can do to the block (20_memory.md R45, R46, R58; 70_reset_and_hazards.md
R143, R155). `width` is the width of the access in bits (R47). -/
inductive Input where
  /-- The master reads at `off`. -/
  | busRead (width : Nat) (off : Offset)
  /-- The master writes `v` at `off`. -/
  | busWrite (width : Nat) (off : Offset) (v : Word)
  /-- `RST` is asserted between two transactions. -/
  | rst
  /-- `RST` is asserted during the transaction of an access at `off`: outside the spec. -/
  | rstDuring (off : Offset)
  /-- Two masters present accesses at `off₁` and `off₂` at once: outside the spec. -/
  | twoMasters (off₁ off₂ : Offset)
  deriving DecidableEq, Repr

/-- The answer of the slave port to one transaction (20_memory.md R45, R46, R48). -/
inductive Response where
  /-- A write completed. -/
  | written
  /-- A read returned `v`. -/
  | data (v : Word)
  /-- The transaction ended with the error response `BusError(off)`. -/
  | busError (off : Offset)
  deriving DecidableEq, Repr

/-- The reasons the machine can stop with a fault. There is none: the spec has no error that stops
the block, since a command error only writes `STATUS` (60_exceptions.md R131, R132) and a bus error
only ends its transaction (20_memory.md R48). -/
inductive Fault where
  deriving DecidableEq, Repr

/-- The reasons a step gives no meaning. -/
inductive Refusal where
  /-- Raised by an arm of `exec` whose instruction has no meaning yet (safe). -/
  | notModelled (mnemonic : String)
  /-- Raised by `perform` for two masters at once, which 20_memory.md R58 puts outside the spec and
  93_implementation_defined.md I4 says to refuse (safe). -/
  | twoMasters
  /-- Raised by `perform` for `RST` inside a transaction, which 20_memory.md R58 puts outside the spec
  and 93_implementation_defined.md I5 says to refuse (safe). -/
  | rstDuringTransaction
  deriving DecidableEq, Repr

/-- Everything 10_state.md R13 gives the block, the constant `BUF_BITS` of `PARAM` (log entry 1), and
three fields of the model's own: `rstCount`, `pending` and `resp` (log entries 2 and 3). -/
structure State where
  /-- `PARAM[31:16]`, the capacity of each payload buffer; a build constant (R36). -/
  bufBits  : Half
  /-- `CTRL` (R14). -/
  ctrl     : Ctrl
  /-- `BOUND[0..31]`, bits [15:0] (R18). -/
  bound    : Vector Half 32
  /-- `IN_TAG[15:0]` (R19). -/
  inTag    : Half
  /-- `IN_LEN[15:0]` (R20). -/
  inLen    : Half
  /-- `FLAGS` (R21). -/
  flags    : Word
  /-- `IN_BUF`: the elements written since the last hardware reset (R22; log entry 2). -/
  inBuf    : Buf
  /-- `OUT_TAG[15:0]` (R23). -/
  outTag   : Half
  /-- `OUT_LEN[15:0]` (R24). -/
  outLen   : Half
  /-- `OUT_BUF`: its elements other than 0x0000 (R25). -/
  outBuf   : Buf
  /-- `APPLIED` (R26). -/
  applied  : Word
  /-- `CUMUL` (R27). -/
  cumul    : Word
  /-- `REACH` (R28). -/
  reach    : Word
  /-- `STATUS` (R29). -/
  status   : Status
  /-- `FRAME_CNT` (R37). -/
  frameCnt : Word
  /-- The model's own: how many hardware resets there have been (log entry 2). -/
  rstCount : Nat
  /-- The model's own: what the host will still do, first element next (log entry 3). -/
  pending  : List Input
  /-- The model's own: the answer to the last transaction (log entry 3). -/
  resp     : Option Response
  deriving DecidableEq, Repr

/-- `CTRL` after reset: LAYERED, word vocabularies, five layers (70_reset_and_hazards.md R144). -/
def Ctrl.reset : Ctrl := { mode := .layered, ifmt := .word, ofmt := .word, nm1 := 4#5 }

/-- `STATUS` after reset: only `CFG_VALID` is 1 (70_reset_and_hazards.md R144, R146). -/
def Status.reset : Status :=
  { cfgValid := true, done := false, fatal := false, err := .ok, sanitized := false,
    nodataIn := false, nodataOut := false, trunc := false, firstTrunc := 0#5 }

/-- `BOUND` after reset: the default topology, then zeros (70_reset_and_hazards.md R144). -/
def boundReset : Vector Half 32 :=
  #v[160#16, 240#16, 320#16, 480#16, 640#16, 0, 0, 0, 0, 0, 0, 0, 0, 0, 0, 0,
     0, 0, 0, 0, 0, 0, 0, 0, 0, 0, 0, 0, 0, 0, 0, 0]

/-- The block of capacity `b` after the first hardware reset, with no access pending: every register
at the value of 70_reset_and_hazards.md R144. No element of `IN_BUF` has been written (R145). -/
def State.resetWith (b : Half) : State :=
  { bufBits := b, ctrl := Ctrl.reset, bound := boundReset, inTag := 0, inLen := 0, flags := 0,
    inBuf := [], outTag := 0, outLen := 0, outBuf := [], applied := 0, cumul := 0, reach := 0,
    status := Status.reset, frameCnt := 0, rstCount := 0, pending := [], resp := none }

/-- The machine right after reset, at the capacity of log entry 1. -/
def State.reset : State := State.resetWith Config.resetBufBits

end Sys2Proof.Machine
end

