-- ==== Sys2Proof/Machine/Ops.lean ====
section
/-! DEFINITION. The named operations over the buffers and the registers, raising an error, the fatal lock, and the two resets (10_state.md R22, R25, R40; 60_exceptions.md R131 to R134; 70_reset_and_hazards.md R143 to R145). -/

namespace Sys2Proof.Machine

/-! ### Payload buffers -/

/-- The listed element of index `j`, if there is one. -/
def bufGet : Buf → Nat → Option Elem
  | [], _ => none
  | (k, v) :: rest, j => if k = j then some v else bufGet rest j

/-- The buffer with `v` listed at index `j`, indices kept rising. -/
def bufPut : Buf → Nat → Elem → Buf
  | [], j, v => [(j, v)]
  | (k, w) :: rest, j, v =>
    if j < k then (j, v) :: (k, w) :: rest
    else if j = k then (j, v) :: rest
    else (k, w) :: bufPut rest j v

/-- The buffer that lists the elements `f j`, `j < n`, that are not 0x0000. -/
def bufOf (n : Nat) (f : Nat → Elem) : Buf :=
  (List.range n).filterMap fun j => if f j = 0 then none else some (j, f j)

/-- The indices of a buffer rise strictly and lie below `n`. -/
abbrev bufRising (n : Nat) (b : Buf) : Prop :=
  b.Pairwise (fun x y => x.1 < y.1) ∧ ∀ e ∈ b, e.1 < n

/-- The one form in which the buffers are held (log entry 12): indices strictly rising and below
`BUF_BITS`, and no element of `OUT_BUF` equal to the 0x0000 an unlisted one reads as. -/
abbrev Memory.wf (s : State) : Prop :=
  bufRising s.bufBits.toNat s.inBuf ∧ bufRising s.bufBits.toNat s.outBuf ∧
    ∀ e ∈ s.outBuf, e.2 ≠ 0

/-- `IN_BUF[j]` (10_state.md R22). An element not written since the last hardware reset holds a free
value that stays fixed until it is written (70_reset_and_hazards.md R145; log entry 2). -/
def inElem (s : State) (j : Nat) : Elem :=
  (bufGet s.inBuf j).getD (Config.inBufAfterRst s.rstCount j)

/-- `OUT_BUF[j]` (10_state.md R25). -/
def outElem (s : State) (j : Nat) : Elem :=
  (bufGet s.outBuf j).getD 0

/-! ### Register writes -/

/-- Write `CTRL`. -/
def State.setCtrl (s : State) (c : Ctrl) : State := { s with ctrl := c }

/-- Write `BOUND[i]`. -/
def State.setBound (s : State) (i : Fin 32) (v : Half) : State :=
  { s with bound := s.bound.set i.val v i.isLt }

/-- Write `IN_TAG`. -/
def State.setInTag (s : State) (v : Half) : State := { s with inTag := v }

/-- Write `IN_LEN`. -/
def State.setInLen (s : State) (v : Half) : State := { s with inLen := v }

/-- Write `FLAGS`. -/
def State.setFlags (s : State) (v : Word) : State := { s with flags := v }

/-- Write `IN_BUF[j]`. -/
def State.setInElem (s : State) (j : Nat) (v : Elem) : State :=
  { s with inBuf := bufPut s.inBuf j v }

/-- Write `STATUS`; only commands and configuration writes do so (10_state.md R40). -/
def State.setStatus (s : State) (st : Status) : State := { s with status := st }

/-- Answer the master. -/
def State.answer (s : State) (r : Response) : State := { s with resp := some r }

/-- Replace what the host will still do. -/
def State.setPending (s : State) (p : List Input) : State := { s with pending := p }

/-- `STATUS.CFG_VALID <- 0`, the side effect of a configuration write (40_control.md R83). -/
def clearCfgValid (s : State) : State := s.setStatus { s.status with cfgValid := false }

/-! ### Errors and the fatal lock -/

/-- `raise Fatal(code)` (60_exceptions.md R131). -/
def raiseFatal (code : ErrCode) (s : State) : State :=
  s.setStatus { s.status with err := code, fatal := true, done := false }

/-- `raise Reject(code)` (60_exceptions.md R132). -/
def raiseReject (code : ErrCode) (s : State) : State :=
  s.setStatus { s.status with err := code, done := false }

/-- The command whose effect is `t`, refused with no effect under the fatal lock (40_control.md R81,
60_exceptions.md R133). The command always completes (log entries 4 and 7). -/
def unlessLocked (s t : State) : Host.Outcome State Fault Refusal :=
  .next (if s.status.fatal then s else t)

/-! ### The resets -/

/-- Every register at its reset value but `IN_BUF`, which keeps its contents, and `PARAM`, which is
constant (40_control.md R86, 70_reset_and_hazards.md R144). -/
def resetRegs (s : State) : State :=
  { State.resetWith s.bufBits with
    inBuf := s.inBuf, rstCount := s.rstCount, pending := s.pending, resp := s.resp }

/-- The hardware reset input `RST` (70_reset_and_hazards.md R143): as `resetRegs`, and no element of
`IN_BUF` counts as written any more (R145; log entries 2 and 13). -/
def hardReset (s : State) : State :=
  { resetRegs s with inBuf := [], rstCount := s.rstCount + 1, resp := none }

end Sys2Proof.Machine
end

