-- ==== Sys2Proof/Machine/Flags.lean ====
section
/-! DEFINITION. The fields of `STATUS`: the error codes, their classes, the word a read returns, and what a PROCESS that completes writes (10_state.md R29 to R34, 30_encoding.md R73, 41_engine.md R116). -/

namespace Sys2Proof.Machine

/-- The four bits of `STATUS.ERR` (30_encoding.md R73). -/
def errBits : ErrCode → BitVec 4
  | .ok => 0x0#4
  | .cfgBoundZero => 0x1#4
  | .cfgBoundOrder => 0x2#4
  | .cfgBoundCap => 0x3#4
  | .lenMisaligned => 0x4#4
  | .notConfigured => 0x8#4
  | .illegalCmd => 0x9#4

/-- The codes of class fatal (30_encoding.md R73, 60_exceptions.md R130). -/
def errIsFatal : ErrCode → Bool
  | .ok => false
  | .cfgBoundZero => true
  | .cfgBoundOrder => true
  | .cfgBoundCap => true
  | .lenMisaligned => true
  | .notConfigured => false
  | .illegalCmd => false

/-- What a read of `STATUS` returns (10_state.md R29): reserved bits are 0. -/
def statusWord (t : Status) : Word :=
  0#11 ++ t.firstTrunc ++ 0#4 ++ BitVec.ofBool t.trunc ++ BitVec.ofBool t.nodataOut ++
    BitVec.ofBool t.nodataIn ++ BitVec.ofBool t.sanitized ++ errBits t.err ++ 0#1 ++
    BitVec.ofBool t.fatal ++ BitVec.ofBool t.done ++ BitVec.ofBool t.cfgValid

/-- `STATUS` after a COMMIT that passes (40_control.md R84). -/
def statusCommitted (t : Status) : Status :=
  { t with cfgValid := true, done := false, err := .ok }

/-- `STATUS` after a PROCESS that completes: `trunc` is the first truncated layer, if a truncation
happened (41_engine.md R116). `CFG_VALID` and `FATAL` are unchanged. -/
def statusProcessed (t : Status) (san nodataIn nodataOut : Bool) (trunc : Option Nat) : Status :=
  { t with
    sanitized := san, nodataIn := nodataIn, nodataOut := nodataOut, trunc := trunc.isSome,
    firstTrunc := BitVec.ofNat 5 (trunc.getD 0), done := true, err := .ok }

end Sys2Proof.Machine
end

