-- ==== Sys2Proof/Machine/Operands.lean ====
section
/-! DEFINITION. The operands of the commands: the layer topology, the erasure flags, the tag vocabularies, lane vectors, and the words of `CTRL` and `PARAM` (00_scope.md R7, R8; 10_state.md R14, R36; 30_encoding.md R60 to R63). -/

namespace Sys2Proof.Machine

/-- The layer count `N` (10_state.md R15). -/
def layers (s : State) : Nat := s.ctrl.nm1.toNat + 1

/-- `up(i)`, the boundary of layer `i` (00_scope.md R7). No rule reads it for `i >= 32`. -/
def up (s : State) (i : Nat) : Half := s.bound[i]?.getD 0

/-- `lo(i)`, the lower boundary of layer `i` (00_scope.md R7). -/
def lo (s : State) : Nat → Half
  | 0 => 0
  | i + 1 => up s i

/-- `FLAGS[i]`, the erasure flag of layer `i` (10_state.md R21). -/
def flag (s : State) (i : Nat) : Bool := s.flags.getLsbD i

/-- Some `i < n` has `p`; for the layers this is `any_i` (00_scope.md R7). -/
def anyBelow (n : Nat) (p : Nat → Bool) : Bool := (List.range n).any p

/-- Every `i < n` has `p`; for the layers this is `all_i` (00_scope.md R7). -/
def allBelow (n : Nat) (p : Nat → Bool) : Bool := (List.range n).all p

/-- The least `i < n` that has `p`. -/
def leastBelow (n : Nat) (p : Nat → Bool) : Option Nat := (List.range n).find? p

/-- The greatest `i < n` that has `p`. -/
def greatestBelow (n : Nat) (p : Nat → Bool) : Option Nat := (List.range n).reverse.find? p

/-- The sum over `i < n` of `p i << i`, a vector with one lane per layer (41_engine.md R116, R124). -/
def packLanes (p : Nat → Bool) : Nat → Word
  | 0 => 0
  | n + 1 => packLanes p n ||| (if p n then BitVec.twoPow 32 n else 0)

/-- `decode_tag`; `none` is INVALID (30_encoding.md R63). -/
def decodeTag (w : Half) : Format → Option Tag
  | .word => if w = 0x6B21#16 then some .sync else if w = 0x6B20#16 then some .fer else none
  | .byte => if w = 0x0021#16 then some .sync else if w = 0x0020#16 then some .fer else none

/-- `encode_tag` (30_encoding.md R63). -/
def encodeTag : Tag → Format → Half
  | .sync, .word => 0x6B21#16
  | .fer, .word => 0x6B20#16
  | .sync, .byte => 0x0021#16
  | .fer, .byte => 0x0020#16

/-- `CTRL.MODE` as a bit (10_state.md R14). -/
def modeBit : Mode → Bool
  | .layered => false
  | .individual => true

/-- The mode a bit of `CTRL` selects (10_state.md R14). -/
def modeOfBit (b : Bool) : Mode := if b then .individual else .layered

/-- `CTRL.IFMT` or `CTRL.OFMT` as a bit (10_state.md R14). -/
def formatBit : Format → Bool
  | .word => false
  | .byte => true

/-- The vocabulary a bit of `CTRL` selects (10_state.md R14). -/
def formatOfBit (b : Bool) : Format := if b then .byte else .word

/-- What a read of `CTRL` returns (10_state.md R14): reserved bits are 0. -/
def ctrlWord (c : Ctrl) : Word :=
  0#19 ++ c.nm1 ++ 0#5 ++ BitVec.ofBool (formatBit c.ofmt) ++ BitVec.ofBool (formatBit c.ifmt) ++
    BitVec.ofBool (modeBit c.mode)

/-- What a write of `v` stores in `CTRL` (10_state.md R14): reserved bits are ignored. -/
def ctrlOfWord (v : Word) : Ctrl :=
  { mode := modeOfBit (v.getLsbD 0), ifmt := formatOfBit (v.getLsbD 1),
    ofmt := formatOfBit (v.getLsbD 2), nm1 := v.extractLsb' 8 5 }

/-- What a read of `PARAM` returns: `NMAX` in [7:0], `BUF_BITS` in [31:16] (10_state.md R36). -/
def paramWord (s : State) : Word := s.bufBits ++ 0x00#8 ++ BitVec.ofNat 8 Config.nmax

end Sys2Proof.Machine
end

