-- ==== Sys2Proof/Machine/Control.lean ====
section
/-! DEFINITION. NOP, COMMIT, SOFT_RESET and the illegal command word (40_control.md R82 to R87). -/

namespace Sys2Proof.Machine

/-- `NOP` changes no state (40_control.md R82); refused under the lock it changes none either. -/
def execNop (s : State) : Host.Outcome State Fault Refusal := .next s

/-- Some `1 <= i < N` has a boundary that is not above the one before it (40_control.md R84). -/
def boundOrderFails (s : State) : Bool :=
  anyBelow (layers s) fun i => decide (1 ≤ i ∧ up s i ≤ up s (i - 1))

/-- The first check of COMMIT that fails, in the order of 40_control.md R84 (60_exceptions.md R136). -/
def topologyError (s : State) : Option ErrCode :=
  if up s 0 = 0 then some .cfgBoundZero
  else if boundOrderFails s then some .cfgBoundOrder
  else if s.bufBits < up s (layers s - 1) then some .cfgBoundCap
  else none

/-- The effect of COMMIT when it is not refused (40_control.md R84). -/
def commitState (s : State) : State :=
  match topologyError s with
  | some code => raiseFatal code (clearCfgValid s)
  | none => s.setStatus (statusCommitted s.status)

/-- `COMMIT` validates the layer topology (40_control.md R84, R85). -/
def execCommit (s : State) : Host.Outcome State Fault Refusal := unlessLocked s (commitState s)

/-- `SOFT_RESET` executes even under the fatal lock (40_control.md R86). -/
def execSoftReset (s : State) : Host.Outcome State Fault Refusal := .next (resetRegs s)

/-- An illegal command word (40_control.md R87): it is no instruction, but the write to `CMD` runs it. -/
def rejectIllegal (s : State) : Host.Outcome State Fault Refusal :=
  unlessLocked s (raiseReject .illegalCmd s)

end Sys2Proof.Machine
end

