-- ==== Sys2Proof/Machine/Engine.lean ====
section
/-! DEFINITION. PROCESS, the per-frame erasure engine: one definition per stage of 41_engine.md, each a function of the registers as they stand when the command executes (20_memory.md R56). -/

namespace Sys2Proof.Machine

/-! ### Sanitized tag and length (R98, R99) -/

/-- `tin`, the decoded input tag; `none` is INVALID (41_engine.md R98). -/
def inputTag (s : State) : Option Tag := decodeTag s.inTag s.ctrl.ifmt

/-- `san`: the input tag is neither SYNC nor FER (41_engine.md R98). -/
def sanitized (s : State) : Bool := (inputTag s).isNone

/-- `tag0`, the sanitized input tag (41_engine.md R98). -/
def tag0 (s : State) : Tag := (inputTag s).getD .fer

/-- `len`, the sanitized input length (41_engine.md R98). -/
def frameLen (s : State) : Half := if sanitized s then 0 else s.inLen

/-- The length check: `len` is 0 or a layer boundary (41_engine.md R99). -/
def lenLegal (s : State) : Bool :=
  frameLen s == 0 || anyBelow (layers s) fun i => frameLen s == up s i

/-! ### Reach and erasure (R100 to R102) -/

/-- `reached[i]` (41_engine.md R100). -/
def reached (s : State) (i : Nat) : Bool := decide (i < layers s ∧ up s i ≤ frameLen s)

/-- `k`, the highest reached layer (41_engine.md R101; log entry 9). -/
def topReached (s : State) : Option Nat := greatestBelow (layers s) (reached s)

/-- `erased[i]` (41_engine.md R102). -/
def erased (s : State) (i : Nat) : Bool := reached s i && flag s i

/-- `intact[i]` (41_engine.md R102). -/
def intact (s : State) (i : Nat) : Bool := reached s i && !flag s i

/-! ### Overlay and tag mark (R103 to R105) -/

/-- `ov[j]`: an intact layer that contains element `j` copies it, and the seed 0x0000 stays otherwise
(41_engine.md R103, R104). -/
def overlay (s : State) (j : Nat) : Elem :=
  if anyBelow (layers s) fun i => intact s i && decide ((lo s i).toNat ≤ j ∧ j < (up s i).toNat)
  then inElem s j else 0

/-- `tag1` (41_engine.md R105). -/
def tag1 (s : State) : Tag := if anyBelow (layers s) (erased s) then .fer else tag0 s

/-! ### Truncation (R106, R108) -/

/-- `t` in LAYERED mode: the lowest erased layer (41_engine.md R106). -/
def truncLayered (s : State) : Option Nat := leastBelow (layers s) (erased s)

/-- `t` in INDIVIDUAL mode: the lowest layer of the contiguous erased run that ends at `k`, if `len`
is not 0 and `k` is erased (41_engine.md R108). -/
def truncIndividual (s : State) : Option Nat :=
  match topReached s with
  | none => none
  | some k =>
    if frameLen s ≠ 0 ∧ erased s k = true then
      leastBelow (k + 1) fun i => allBelow (k + 1) fun m => decide (m < i) || erased s m
    else none

/-- The first truncated layer `t`; `none` is `trunc = 0` (41_engine.md R106, R108). -/
def firstTrunc (s : State) : Option Nat :=
  match s.ctrl.mode with
  | .layered => truncLayered s
  | .individual => truncIndividual s

/-- `olen`, the output length (41_engine.md R106, R108). -/
def outputLen (s : State) : Half :=
  match firstTrunc s with
  | some t => lo s t
  | none => frameLen s

/-! ### Attribution and output (R110 to R114) -/

/-- `trunc and i > t` (41_engine.md R110). -/
def aboveTrunc (s : State) (i : Nat) : Bool :=
  match firstTrunc s with
  | some t => decide (t < i)
  | none => false

/-- `applied[i]`: erased, or removed by the cascade (41_engine.md R110). -/
def newlyApplied (s : State) (i : Nat) : Bool := erased s i || (aboveTrunc s i && intact s i)

/-- `tag_out` (41_engine.md R112). -/
def tagOut (s : State) : Tag :=
  if outputLen s = 0 then tag1 s
  else if anyBelow (outputLen s).toNat fun j => overlay s j == 0 then .fer else .sync

/-- What `OUT_BUF[j]` becomes (41_engine.md R113). -/
def payloadOut (s : State) (j : Nat) : Elem :=
  if j < (outputLen s).toNat then overlay s j else 0

/-- `OUT_BUF` in full: every element at or above `olen` is 0x0000 (41_engine.md R113). -/
def outputBuf (s : State) : Buf :=
  bufOf (min (outputLen s).toNat s.bufBits.toNat) (payloadOut s)

/-- `nodata_out` (41_engine.md R114). -/
def nodataOut (s : State) : Bool := decide (tagOut s = .sync ∧ outputLen s = 0)

/-- `ov[j] == 0x0000` for every element of layer `i` (41_engine.md R114). -/
def layerBlank (s : State) (i : Nat) : Bool :=
  allBelow (up s i).toNat fun j => decide (j < (lo s i).toNat) || overlay s j == 0

/-- `cumul[i]`: the layer is not retained, or it is retained in a FER frame and blank
(41_engine.md R114). -/
def cumulative (s : State) (i : Nat) : Bool :=
  !nodataOut s &&
    (decide (outputLen s < up s i) ||
      (decide (tagOut s = .fer ∧ up s i ≤ outputLen s) && layerBlank s i))

/-! ### Write-back and the command (R96, R97, R99, R116) -/

/-- The write-back of a PROCESS that completes (41_engine.md R116). -/
def writeBack (s : State) : State :=
  { s with
    outTag := encodeTag (tagOut s) s.ctrl.ofmt
    outLen := outputLen s
    outBuf := outputBuf s
    applied := packLanes (newlyApplied s) (layers s)
    cumul := packLanes (cumulative s) (layers s)
    reach := packLanes (reached s) (layers s)
    status := statusProcessed s.status (sanitized s)
      (decide (tag0 s = .sync ∧ frameLen s = 0)) (nodataOut s) (firstTrunc s)
    frameCnt := s.frameCnt + 1 }

/-- The effect of PROCESS when it is not refused: the guard (41_engine.md R97), the length check
(R99), then the write-back (R116). The order is 60_exceptions.md R136's. -/
def processState (s : State) : State :=
  if s.status.cfgValid = false then raiseReject .notConfigured s
  else if lenLegal s then writeBack s
  else raiseFatal .lenMisaligned s

/-- `PROCESS` runs the engine on one frame (41_engine.md R96). -/
def execProcess (s : State) : Host.Outcome State Fault Refusal := unlessLocked s (processState s)

end Sys2Proof.Machine
end

