-- ==== Sys2Proof/Machine/Dispatch.lean ====
section
/-! DEFINITION. The meaning of each command (40_control.md R81, 41_engine.md R96): one arm per constructor. -/

namespace Sys2Proof.Machine

def exec (i : Instr) (s : State) : Host.Outcome State Fault Refusal :=
  match i with
  | .nop => Sys2Proof.Machine.execNop s
  | .commit => Sys2Proof.Machine.execCommit s
  | .process => Sys2Proof.Machine.execProcess s
  | .softReset => Sys2Proof.Machine.execSoftReset s

end Sys2Proof.Machine
end

