-- ==== Sys2Proof/Machine/Bus.lean ====
section
/-! DEFINITION. The slave port: the address map, register reads and writes, the commands a write to CMD runs, and what the world outside can do (20_memory.md R41 to R58, 40_control.md R81 and R83). -/

namespace Sys2Proof.Machine

/-- The registers and buffer elements of the address map (20_memory.md R42). -/
inductive Reg where
  | ctrl | status | cmd | param | inTag | inLen | flags | frameCnt
  | outTag | outLen | applied | cumul | reach
  | bound (i : Fin 32)
  | inBuf (j : Nat)
  | outBuf (j : Nat)
  deriving DecidableEq, Repr

/-- The registers at the offsets 0x00000 to 0x00030, one a word (20_memory.md R42). -/
def lowRegs : List Reg :=
  [.ctrl, .status, .cmd, .param, .inTag, .inLen, .flags, .frameCnt,
   .outTag, .outLen, .applied, .cumul, .reach]

/-- The register whose word contains byte offset `n`, or `none` where the map has a hole, for a block
of capacity `b` (20_memory.md R42). -/
def regAt (b n : Nat) : Option Reg :=
  if n < 0x00034 then lowRegs[n / 4]?
  else if n < 0x00080 then none
  else if n < 0x00100 then some (.bound (Fin.ofNat 32 ((n - 0x00080) / 4)))
  else if n < 0x40000 then none
  else if n < 0x40000 + 4 * b then some (.inBuf ((n - 0x40000) / 4))
  else if n < 0x80000 then none
  else if n < 0x80000 + 4 * b then some (.outBuf ((n - 0x80000) / 4))
  else none

/-- The register a legal access reaches; `none` is a bus error. Legal is a 32-bit access at an
aligned, mapped offset (20_memory.md R47, R48; log entry 14). -/
def target (s : State) (width : Nat) (off : Offset) : Option Reg :=
  if width = 32 ∧ off.toNat % 4 = 0 then regAt s.bufBits.toNat off.toNat else none

/-- The 32-bit value of a register, reserved bits 0 (20_memory.md R43 to R45, R49, R50). DEDUCED (log entry
6): `APPLIED`, `CUMUL` and `REACH` read as PROCESS stored them, whatever `CTRL.NM1` holds now. -/
def readReg (s : State) : Reg → Word
  | .ctrl => ctrlWord s.ctrl
  | .status => statusWord s.status
  | .cmd => 0
  | .param => paramWord s
  | .inTag => s.inTag.setWidth 32
  | .inLen => s.inLen.setWidth 32
  | .flags => s.flags
  | .frameCnt => s.frameCnt
  | .outTag => s.outTag.setWidth 32
  | .outLen => s.outLen.setWidth 32
  | .applied => s.applied
  | .cumul => s.cumul
  | .reach => s.reach
  | .bound i => (up s i.val).setWidth 32
  | .inBuf j => (inElem s j).setWidth 32
  | .outBuf j => (outElem s j).setWidth 32

/-- A write of `v` to a register: its writable bits, and the side effect of a configuration write
(20_memory.md R43, R46, R49, R50; 40_control.md R83). Read-only registers ignore it. `CMD` holds no
state; `busWrite` runs the command. -/
def writeReg (s : State) (r : Reg) (v : Word) : State :=
  match r with
  | .ctrl => clearCfgValid (s.setCtrl (ctrlOfWord v))
  | .bound i => clearCfgValid (s.setBound i (v.setWidth 16))
  | .inTag => s.setInTag (v.setWidth 16)
  | .inLen => s.setInLen (v.setWidth 16)
  | .flags => s.setFlags v
  | .inBuf j => s.setInElem j (v.setWidth 16)
  | .cmd => s
  | .status => s
  | .param => s
  | .frameCnt => s
  | .outTag => s
  | .outLen => s
  | .applied => s
  | .cumul => s
  | .reach => s
  | .outBuf _ => s

/-- The command a write of `w` to `CMD` runs (40_control.md R81): the decoded instruction, or the
rejection of an illegal word (R87). The lock is checked inside each (log entry 7). -/
def command (w : Word) (s : State) : Host.Outcome State Fault Refusal :=
  match decode w with
  | .ok i => exec i s
  | .error _ => rejectIllegal s

/-- The answer `r` given once an outcome is reached (20_memory.md R55). -/
def thenAnswer (r : Response) : Host.Outcome State Fault Refusal → Host.Outcome State Fault Refusal
  | .next t => .next (t.answer r)
  | .fault f => .fault f
  | .refused q => .refused q

/-- `BusRead(off)` (20_memory.md R45, R48). -/
def busRead (width : Nat) (off : Offset) (s : State) : State :=
  match target s width off with
  | some r => s.answer (.data (readReg s r))
  | none => s.answer (.busError off)

/-- `BusWrite(off, v)` (20_memory.md R46, R48). -/
def busWrite (width : Nat) (off : Offset) (v : Word) (s : State) :
    Host.Outcome State Fault Refusal :=
  match target s width off with
  | some r => if r = .cmd then thenAnswer .written (command v s)
              else .next ((writeReg s r v).answer .written)
  | none => .next (s.answer (.busError off))

/-- What one input from outside does. -/
def perform (i : Input) (s : State) : Host.Outcome State Fault Refusal :=
  match i with
  | .busRead width off => .next (busRead width off s)
  | .busWrite width off v => busWrite width off v s
  | .rst => .next (hardReset s)
  | .rstDuring _ => .refused .rstDuringTransaction
  | .twoMasters _ _ => .refused .twoMasters

/-- The offset of `CMD` (20_memory.md R42). -/
def cmdOffset : Offset := 0x00008#20

/-- What happens next: the host's next input, or nothing, since the block waits for bus accesses and
holds all its state (60_exceptions.md R142, 70_reset_and_hazards.md R143; log entry 3). -/
def advance (s : State) : Host.Outcome State Fault Refusal :=
  match s.pending with
  | [] => .next s
  | i :: rest => perform i (s.setPending rest)

/-- `s` with a write of the command word `w` to `CMD` as the host's next input (30_encoding.md R70). -/
def withCommandWord (s : State) (w : Word) : State :=
  s.setPending (.busWrite 32 cmdOffset w :: s.pending)

end Sys2Proof.Machine
end

