-- ==== Sys2Proof/Machine/Program.lean ====
section
/-! DEFINITION. The notation for host programs and its expansions into bus transactions (30_encoding.md R74 and R75). -/

namespace Sys2Proof.Machine

/-- A line of a program: a bus access (30_encoding.md R74) or a pseudo-instruction (R75). -/
inductive Line where
  | w (off : Offset) (v : Word)
  | r (off : Offset)
  | nop
  | commit
  | process
  | softReset
  | setctrl (mode ifmt ofmt n : Word)
  | setbound (i : Nat) (v : Word)
  | setflags (m : Word)
  | frame (tag len : Word) (elems : List Word)
  | fill (a b : Nat) (v : Word)
  deriving DecidableEq, Repr

/-- A 32-bit write at offset `off` (30_encoding.md R74). DESIGN CHOICE (log entry 15): the spec gives no
expansion to a line whose offset does not fit the 20 bits of R74, and the model keeps the low 20 bits. -/
def lineWrite (off : Nat) (v : Word) : Input := .busWrite 32 (BitVec.ofNat 20 off) v

/-- The writes of `elems` to consecutive elements of `IN_BUF` from element `j` on; an offset above 20 bits
wraps (log entry 15). -/
def lineElems : Nat → List Word → List Input
  | _, [] => []
  | j, e :: rest => lineWrite (0x40000 + 4 * j) e :: lineElems (j + 1) rest

/-- Exactly the accesses a line stands for, in order (30_encoding.md R75). DESIGN CHOICE (log entry 15): the
spec gives no ranges for the operands of a line; an offset above 20 bits wraps (`lineWrite`), and the
operands of `SETCTRL` are 32-bit words put together modulo 2^32. -/
def Line.expand : Line → List Input
  | .w off v => [.busWrite 32 off v]
  | .r off => [.busRead 32 off]
  | .nop => [lineWrite 0x00008 0x00000000#32]
  | .commit => [lineWrite 0x00008 0x00000001#32]
  | .process => [lineWrite 0x00008 0x00000002#32]
  | .softReset => [lineWrite 0x00008 0x0000000F#32]
  | .setctrl mode ifmt ofmt n =>
    [lineWrite 0x00000 (((n - 1) <<< 8) ||| (ofmt <<< 2) ||| (ifmt <<< 1) ||| mode)]
  | .setbound i v => [lineWrite (0x00080 + 4 * i) v]
  | .setflags m => [lineWrite 0x00018 m]
  | .frame tag len elems => lineWrite 0x00010 tag :: lineWrite 0x00014 len :: lineElems 0 elems
  | .fill a b v => lineElems a (List.replicate (b - a) v)

/-- `s` with a program as what the host will do (log entry 3). -/
def loadProgram (s : State) (p : List Line) : State := s.setPending (p.flatMap Line.expand)

end Sys2Proof.Machine
end

