-- ==== Sys2Proof/Machine/Step.lean ====
section
/-! DEFINITION. One step: the host's next input. -/

namespace Sys2Proof.Machine

/-- One step of the machine (log entry 3). -/
def step (s : State) : Host.Outcome State Fault Refusal := advance s

/-- `s` with the instruction word `w` placed so that the next step runs it: FETE fetches nothing
(20_memory.md R56), so the word stands as the host's next write to `CMD` (log entry 3). -/
def State.withFetchWord (s : State) (nbits w : Nat) : State :=
  withCommandWord s (BitVec.ofNat 32 (w % 2 ^ nbits))

end Sys2Proof.Machine
end

