-- ==== Sys2Proof/Safety.lean ====
section
/-! DEFINITION. The terms claims use: a legal topology, when PROCESS completes, what a command may leave unchanged, the reset values as the bus reads them, mapped offsets, and the invariant of the machine. -/

namespace Sys2Proof.Machine

/-- The topology COMMIT accepts: positive, strictly increasing over the `N` layers, and inside the
buffers (40_control.md R84). -/
abbrev TopologyLegal (s : State) : Prop :=
  up s 0 ≠ 0 ∧ (∀ i < layers s, 1 ≤ i → up s (i - 1) < up s i) ∧ up s (layers s - 1) ≤ s.bufBits

/-- The sanitized length is 0 or one of the `N` boundaries (30_encoding.md R67, 41_engine.md R99). -/
abbrev LengthLegal (s : State) : Prop :=
  frameLen s = 0 ∨ ∃ i, i < layers s ∧ frameLen s = up s i

/-- PROCESS is neither refused nor in error (40_control.md R81; 41_engine.md R97, R99). -/
abbrev CanProcess (s : State) : Prop :=
  s.status.fatal = false ∧ s.status.cfgValid = true ∧ LengthLegal s

/-- Configuration, inputs and the build constant are the same; `IN_BUF` is compared as it reads
(10_state.md R40). -/
abbrev SameInputs (s t : State) : Prop :=
  t.bufBits = s.bufBits ∧ t.ctrl = s.ctrl ∧ t.bound = s.bound ∧ t.inTag = s.inTag ∧
    t.inLen = s.inLen ∧ t.flags = s.flags ∧ ∀ j, inElem t j = inElem s j

/-- Output and attribution registers and the counter are the same; `OUT_BUF` is compared as it reads
(10_state.md R40). -/
abbrev SameOutputs (s t : State) : Prop :=
  t.outTag = s.outTag ∧ t.outLen = s.outLen ∧ (∀ j, outElem t j = outElem s j) ∧
    t.applied = s.applied ∧ t.cumul = s.cumul ∧ t.reach = s.reach ∧ t.frameCnt = s.frameCnt

/-- The diagnostic fields of `STATUS` are the same (10_state.md R34). -/
abbrev SameDiagnostics (s t : State) : Prop :=
  t.status.sanitized = s.status.sanitized ∧ t.status.nodataIn = s.status.nodataIn ∧
    t.status.nodataOut = s.status.nodataOut ∧ t.status.trunc = s.status.trunc ∧
    t.status.firstTrunc = s.status.firstTrunc

/-- The model's own fields are the same (log entries 2 and 3). -/
abbrev SameHost (s t : State) : Prop :=
  t.rstCount = s.rstCount ∧ t.pending = s.pending ∧ t.resp = s.resp

/-- Every register reads as 70_reset_and_hazards.md R144 says, for capacity `b`. `IN_BUF` is left out:
the two resets treat it differently (R143). -/
abbrev ReadsAsReset (b : Half) (t : State) : Prop :=
  readReg t .ctrl = 0x00000400#32 ∧
  (readReg t (.bound 0) = 0x00A0#32 ∧ readReg t (.bound 1) = 0x00F0#32 ∧
    readReg t (.bound 2) = 0x0140#32 ∧ readReg t (.bound 3) = 0x01E0#32 ∧
    readReg t (.bound 4) = 0x0280#32 ∧ ∀ i : Fin 32, 5 ≤ i.val → readReg t (.bound i) = 0) ∧
  readReg t .inTag = 0 ∧ readReg t .inLen = 0 ∧ readReg t .flags = 0 ∧
  readReg t .outTag = 0 ∧ readReg t .outLen = 0 ∧ (∀ j, readReg t (.outBuf j) = 0) ∧
  readReg t .applied = 0 ∧ readReg t .cumul = 0 ∧ readReg t .reach = 0 ∧
  readReg t .status = 0x00000001#32 ∧ readReg t .frameCnt = 0 ∧
  readReg t .param = b ++ 0x00#8 ++ 0x20#8 ∧ readReg t .cmd = 0

/-- The reserved bits of a register (10_state.md R14, R18 to R20, R23, R24, R29, R36; 20_memory.md R43,
R44). -/
def reservedBits : Reg → Word
  | .ctrl => ~~~0x00001F07#32
  | .status => ~~~0x001F0FF7#32
  | .param => 0x0000FF00#32
  | .inTag => 0xFFFF0000#32
  | .inLen => 0xFFFF0000#32
  | .outTag => 0xFFFF0000#32
  | .outLen => 0xFFFF0000#32
  | .bound _ => 0xFFFF0000#32
  | .inBuf _ => 0xFFFF0000#32
  | .outBuf _ => 0xFFFF0000#32
  | .cmd => 0
  | .flags => 0
  | .frameCnt => 0
  | .applied => 0
  | .cumul => 0
  | .reach => 0

/-- Offset `n` is an aligned offset the address map gives to some register, for capacity `b`
(20_memory.md R42). -/
abbrev Mapped (b n : Nat) : Prop :=
  n % 4 = 0 ∧ (n ≤ 0x00030 ∨ (0x00080 ≤ n ∧ n < 0x00100) ∨
    (0x40000 ≤ n ∧ n < 0x40000 + 4 * b) ∨ (0x80000 ≤ n ∧ n < 0x80000 + 4 * b))

/-- The host's next input is a write of the command word `w` to `CMD` (40_control.md R81). -/
abbrev NextIsCommand (s : State) (w : Word) : Prop :=
  s.pending.head? = some (.busWrite 32 cmdOffset w)

/-- What holds of the machine between any two steps. -/
structure State.Inv (s : State) : Prop where
  /-- `BUF_BITS` is one the spec permits (00_scope.md R5). -/
  capacity : Config.minBufBits ≤ s.bufBits.toNat
  /-- The buffers are in their one form (log entry 12). -/
  memory : Memory.wf s
  /-- A valid configuration has passed the checks of COMMIT (10_state.md R29, R30). -/
  config : s.status.cfgValid = true → TopologyLegal s
  /-- `FATAL` is set exactly while `ERR` holds a fatal code (10_state.md R32, R33). -/
  lock : s.status.fatal = errIsFatal s.status.err
  /-- `DONE` goes with success (10_state.md R31, R33). -/
  done : s.status.done = true → s.status.err = .ok
  /-- The output frame fits the buffer, and beyond it `OUT_BUF` is 0x0000 (10_state.md R25). -/
  outLen : s.outLen ≤ s.bufBits
  outBuf : ∀ j, s.outLen.toNat ≤ j → outElem s j = 0
  /-- `OUT_TAG` is 0x0000 or a tag of one of the vocabularies (10_state.md R23). -/
  outTag : s.outTag = 0 ∨ ∃ t f, s.outTag = encodeTag t f
  /-- `FIRST_TRUNC` is 0 without a truncation (10_state.md R34). -/
  firstTrunc : s.status.trunc = false → s.status.firstTrunc = 0
  /-- A no-data output counts no layer and has no payload (10_state.md R34, 41_engine.md R115). -/
  nodata : s.status.nodataOut = true → s.outLen = 0 ∧ s.applied = 0 ∧ s.cumul = 0
  /-- A layer newly erased was reached and is erased in the output (10_state.md R26 to R28). -/
  applied : s.applied &&& s.reach = s.applied ∧ s.applied &&& s.cumul = s.applied

end Sys2Proof.Machine
end

