-- ==== Sys2Proof/Certificates/Slice0/Obligations.lean ====
section
/-! DEFINITION. The statements about FETE for the provers. Where a statement assumes `TopologyLegal s`, the invariant `State.Inv` gives it for every configuration that is marked valid, and `EveryStepKeepsTheInvariant` says that every step keeps it. -/

open Sys2Proof Sys2Proof.Machine

/-! ### Encodings -/

/-- 30_encoding.md R71: the opcode map, over all 32-bit words; R72: every other word is illegal. -/
def Obligations.DecoderMatchesOpcodeMap : Prop :=
  ∀ w : Word, (decode w).toOption =
    if w = 0x00000000#32 then some .nop
    else if w = 0x00000001#32 then some .commit
    else if w = 0x00000002#32 then some .process
    else if w = 0x0000000F#32 then some .softReset
    else none

/-- Decoding and encoding agree in both directions (30_encoding.md section 2). -/
def Obligations.DecodeEncodeAgree : Prop :=
  (∀ i : Instr, i.wellFormed = true → wordWellFormed (encode i) = true ∧ decode (encode i) = .ok i) ∧
    ∀ (w : Word) (i : Instr), decode w = .ok i → encode i = w

/-- Words written out from 30_encoding.md R70 and R71, one for each command and two illegal ones. -/
def Obligations.SampleWordsDecode : Prop :=
  decode 0x00000000#32 = .ok .nop ∧ decode 0x00000001#32 = .ok .commit ∧
  decode 0x00000002#32 = .ok .process ∧ decode 0x0000000F#32 = .ok .softReset ∧
  decode 0x00000012#32 = .error .mbzNonzero ∧ decode 0x00000003#32 = .error (.reservedOpcode 3#4)

/-- 30_encoding.md R63: the two functions, INVALID for every other word, and the engine's treatment of an
INVALID tag. -/
def Obligations.TagVocabularies : Prop :=
  (∀ w : Half, decodeTag w .word =
    if w = 0x6B21#16 then some .sync else if w = 0x6B20#16 then some .fer else none) ∧
  (∀ w : Half, decodeTag w .byte =
    if w = 0x0021#16 then some .sync else if w = 0x0020#16 then some .fer else none) ∧
  encodeTag .sync .word = 0x6B21#16 ∧ encodeTag .fer .word = 0x6B20#16 ∧
  encodeTag .sync .byte = 0x0021#16 ∧ encodeTag .fer .byte = 0x0020#16 ∧
  (∀ (t : Tag) (f : Format), decodeTag (encodeTag t f) f = some t) ∧
  ∀ s : State, decodeTag s.inTag s.ctrl.ifmt = none →
    tag0 s = .fer ∧ frameLen s = 0 ∧ sanitized s = true

/-! ### Steps and commands -/

/-- A step runs the decoded instruction: when the host's next input writes a command word that decodes
to a well-formed instruction to `CMD`, the step is `exec` of it, with that input taken off what the
host will still do and the write answered when the command has finished (20_memory.md R55). -/
def Obligations.StepRunsTheDecodedInstruction : Prop :=
  (∀ (s : State) (w : Word) (rest : List Input) (i : Instr),
    s.pending = .busWrite 32 0x00008#20 w :: rest → decode w = .ok i → i.wellFormed = true →
    ∃ t, exec i (s.setPending rest) = .next t ∧ step s = .next (t.answer .written)) ∧
  ∀ (s : State) (w : Word) (i : Instr), decode w = .ok i → i.wellFormed = true →
    ∃ t, exec i s = .next t ∧
      step (s.withFetchWord 32 w.toNat) = .next (t.answer .written)

/-- 40_control.md R81: a write to `CMD` is refused under the lock unless it is SOFT_RESET, and runs
exactly one command otherwise. -/
def Obligations.DispatchOfCommandWords : Prop :=
  ∀ (s : State) (w : Word) (rest : List Input),
    s.pending = .busWrite 32 0x00008#20 w :: rest →
    (s.status.fatal = true ∧ w ≠ 0x0000000F#32 →
      step s = .next ((s.setPending rest).answer .written)) ∧
    (¬(s.status.fatal = true ∧ w ≠ 0x0000000F#32) →
      ∃ t, step s = .next (t.answer .written) ∧
        if w = 0x00000000#32 then exec .nop (s.setPending rest) = .next t
        else if w = 0x00000001#32 then exec .commit (s.setPending rest) = .next t
        else if w = 0x00000002#32 then exec .process (s.setPending rest) = .next t
        else if w = 0x0000000F#32 then exec .softReset (s.setPending rest) = .next t
        else t = (s.setPending rest).setStatus
          { s.status with done := false, err := .illegalCmd })

/-- No step faults, a step is refused exactly for the two inputs the spec puts outside itself
(20_memory.md section 5; log entry 5), and without an input the block holds all its state
(60_exceptions.md section 6). The empty step is the model's choice: log entry 3. -/
def Obligations.StepsRefuseOnlyInputsOutsideTheSpec : Prop :=
  (∀ s : State, s.pending = [] → step s = .next s) ∧
  ∀ s : State, (∃ t, step s = .next t) ↔
    ¬((∃ off, s.pending.head? = some (.rstDuring off)) ∨
      ∃ a b, s.pending.head? = some (.twoMasters a b))

/-- 40_control.md R82: NOP completes in every state, the locked ones among them, and changes nothing; a
step that runs it only answers the write. -/
def Obligations.NopChangesNothing : Prop :=
  ∀ s : State, exec .nop s = .next s ∧
    ∀ rest, s.pending = .busWrite 32 0x00008#20 0x00000000#32 :: rest →
      step s = .next ((s.setPending rest).answer .written)

/-- 40_control.md R84: the three checks in order, and `STATUS` after each outcome. Every other field
is unchanged. What the checks ensure stands in the second part. -/
def Obligations.CommitValidatesTheTopology : Prop :=
  (∀ s : State, s.status.fatal = false →
    let failed (code : ErrCode) : State := s.setStatus
      { s.status with cfgValid := false, done := false, fatal := true, err := code }
    exec .commit s = .next (
      if up s 0 = 0 then failed .cfgBoundZero
      else if ∃ i, i < layers s ∧ 1 ≤ i ∧ up s i ≤ up s (i - 1) then failed .cfgBoundOrder
      else if s.bufBits < up s (layers s - 1) then failed .cfgBoundCap
      else s.setStatus { s.status with cfgValid := true, done := false, err := .ok })) ∧
  ∀ (s : State) (i : Nat), TopologyLegal s → i < layers s →
    i + 1 ≤ (up s i).toNat ∧ up s i ≤ s.bufBits

/-- A COMMIT of a legal topology passes (40_control.md section on COMMIT), whatever `CFG_VALID` held. -/
def Obligations.CommitPassesOnLegalTopology : Prop :=
  ∀ s : State, s.status.fatal = false → TopologyLegal s →
    exec .commit s = .next
      (s.setStatus { s.status with cfgValid := true, done := false, err := .ok })

/-- COMMIT never reads a boundary of a layer that is not configured (the second corner case of
40_control.md R85, which the spec marks as derived). -/
def Obligations.CommitIgnoresUnusedBoundaries : Prop :=
  ∀ (s : State) (i : Fin 32) (v : Half), layers s ≤ i.val →
    ∃ t, exec .commit s = .next t ∧ exec .commit (s.setBound i v) = .next (t.setBound i v)

/-- 40_control.md R87 and 30_encoding.md R72: an illegal word is a non-fatal rejection that changes
nothing else; under the lock it changes nothing. -/
def Obligations.IllegalWordsAreRejected : Prop :=
  ∀ (s : State) (w : Word), (4 ≤ w.toNat ∨ w = 3#32) → w ≠ 0x0000000F#32 →
    (s.status.fatal = false → command w s = .next
      (s.setStatus { s.status with done := false, err := .illegalCmd })) ∧
    (s.status.fatal = true → command w s = .next s)

/-! ### Errors, the lock and the status bookkeeping -/

/-- What `raise Fatal` leaves, whichever command raised it (60_exceptions.md section 2): the outputs,
the diagnostics and the counter of the last PROCESS that completed, and `CFG_VALID` but for COMMIT. -/
def Obligations.FatalErrorsArePrecise : Prop :=
  ∀ (i : Instr) (s t : State), exec i s = .next t → s.status.fatal = false →
    t.status.fatal = true →
    errIsFatal t.status.err = true ∧ t.status.done = false ∧ SameInputs s t ∧ SameOutputs s t ∧
    SameDiagnostics s t ∧ SameHost s t ∧
    ((i = .commit ∧ t.status.cfgValid = false) ∨
      (i = .process ∧ t.status.cfgValid = s.status.cfgValid ∧ t.status.err = .lenMisaligned))

/-- 60_exceptions.md R133: under the lock every write to `CMD` but SOFT_RESET changes no register;
register writes, with the side effect of a configuration write, and reads are still accepted. -/
def Obligations.LockRefusesCommandsOnly : Prop :=
  ∀ s : State, s.status.fatal = true →
    (∀ w : Word, w ≠ 0x0000000F#32 → command w s = .next s) ∧
    (∀ (off : Offset) (v : Word) (r : Reg), target s 32 off = some r → r ≠ .cmd →
      perform (.busWrite 32 off v) s = .next ((writeReg s r v).answer .written) ∧
      (r = .ctrl ∨ (∃ i, r = .bound i) → (writeReg s r v).status =
        { s.status with cfgValid := false })) ∧
    (∀ (off : Offset) (r : Reg), target s 32 off = some r →
      perform (.busRead 32 off) s = .next (s.answer (.data (readReg s r))))

/-- 60_exceptions.md R134: only `RST` and SOFT_RESET leave the fatal state, and both restore the full
reset state; a non-fatal error sets no lock. -/
def Obligations.OnlyResetsLeaveTheLock : Prop :=
  (∀ (s t : State) (i : Instr), exec i s = .next t → s.status.fatal = false →
    errIsFatal t.status.err = false → i ≠ .nop → t.status.fatal = false) ∧
  ∀ s t : State, step s = .next t → s.status.fatal = true → t.status.fatal = false →
    (s.pending.head? = some .rst ∨ NextIsCommand s 0x0000000F#32) ∧ ReadsAsReset s.bufBits t

/-- 60_exceptions.md R136: which error is reported when several conditions hold. -/
def Obligations.ErrorPriority : Prop :=
  (∀ (s : State) (w : Word), s.status.fatal = true → w ≠ 0x0000000F#32 → command w s = .next s) ∧
  (∀ (s t : State) (w : Word), s.status.fatal = false → (∀ i, w ≠ encode i) →
    command w s = .next t → t.status.err = .illegalCmd) ∧
  (∀ s t : State, s.status.fatal = false → exec .commit s = .next t →
    (up s 0 = 0 → t.status.err = .cfgBoundZero) ∧
    (up s 0 ≠ 0 → (∃ i, i < layers s ∧ 1 ≤ i ∧ up s i ≤ up s (i - 1)) →
      t.status.err = .cfgBoundOrder) ∧
    (up s 0 ≠ 0 → (¬∃ i, i < layers s ∧ 1 ≤ i ∧ up s i ≤ up s (i - 1)) →
      s.bufBits < up s (layers s - 1) → t.status.err = .cfgBoundCap)) ∧
  (∀ s t : State, s.status.fatal = false → exec .process s = .next t →
    (s.status.cfgValid = false → t.status.err = .notConfigured) ∧
    (s.status.cfgValid = true → inputTag s ≠ none → ¬LengthLegal s →
      t.status.err = .lenMisaligned) ∧
    (s.status.cfgValid = true → inputTag s = none → t.status.err = .ok)) ∧
  ∀ (s : State) (width : Nat) (off : Offset) (v : Word), off.toNat / 4 = 2 →
    ¬(width = 32 ∧ off.toNat % 4 = 0) →
    perform (.busWrite width off v) s = .next (s.answer (.busError off))

/-- 10_state.md R30: what writes `CFG_VALID`, and that PROCESS requires it. -/
def Obligations.CfgValidIsWrittenAsStated : Prop :=
  (∀ s t : State, exec .softReset s = .next t → t.status.cfgValid = true) ∧
  (∀ s : State, (hardReset s).status.cfgValid = true) ∧
  (∀ s t : State, s.status.fatal = false → exec .commit s = .next t →
    (t.status.cfgValid = true ↔ TopologyLegal s)) ∧
  (∀ (s : State) (r : Reg) (v : Word), (r = .ctrl ∨ ∃ i, r = .bound i) →
    (writeReg s r v).status.cfgValid = false) ∧
  (∀ s t : State, s.status.fatal = false → s.status.cfgValid = false →
    exec .process s = .next t → t.status.err = .notConfigured ∧ t.frameCnt = s.frameCnt) ∧
  ∀ s t : State, step s = .next t → t.status.cfgValid ≠ s.status.cfgValid →
    s.pending.head? = some .rst ∨ NextIsCommand s 0x0000000F#32 ∨ NextIsCommand s 0x00000001#32 ∨
    ∃ off v r, s.pending.head? = some (.busWrite 32 off v) ∧ target s 32 off = some r ∧
      (r = .ctrl ∨ ∃ i, r = .bound i)

/-- 10_state.md R31: what writes `DONE`. -/
def Obligations.DoneIsWrittenAsStated : Prop :=
  (∀ s t : State, s.status.fatal = false → exec .process s = .next t →
    (t.status.done = true ↔ s.status.cfgValid = true ∧ LengthLegal s)) ∧
  (∀ s t : State, s.status.fatal = false → exec .commit s = .next t → t.status.done = false) ∧
  (∀ s t : State, exec .softReset s = .next t → t.status.done = false) ∧
  (∀ (s t : State) (w : Word), s.status.fatal = false → (∀ i, w ≠ encode i) →
    command w s = .next t → t.status.done = false) ∧
  (∀ s t : State, exec .nop s = .next t → t.status.done = s.status.done) ∧
  ∀ (s t : State) (w : Word), s.status.fatal = true → w ≠ 0x0000000F#32 →
    command w s = .next t → t.status.done = s.status.done

/-- 10_state.md R34: a PROCESS that completes writes every diagnostic field, with these values; any
other command leaves them, and SOFT_RESET resets them. -/
def Obligations.DiagnosticsAreWrittenAsStated : Prop :=
  (∀ s t : State, CanProcess s → TopologyLegal s → exec .process s = .next t →
    (t.status.sanitized = true ↔ inputTag s = none) ∧
    (t.status.nodataIn = true ↔ tag0 s = .sync ∧ frameLen s = 0) ∧
    (t.status.nodataOut = true ↔ t.outTag = encodeTag .sync s.ctrl.ofmt ∧ t.outLen = 0) ∧
    (t.status.trunc = true ↔ ∃ k, firstTrunc s = some k) ∧
    (t.status.trunc = true ↔ t.outLen < frameLen s) ∧
    (∀ k, firstTrunc s = some k → t.status.firstTrunc.toNat = k) ∧
    (t.status.trunc = false → t.status.firstTrunc = 0)) ∧
  (∀ (s t : State) (w : Word), command w s = .next t → w ≠ 0x0000000F#32 →
    ¬(w = 0x00000002#32 ∧ CanProcess s) → SameDiagnostics s t) ∧
  ∀ s t : State, exec .softReset s = .next t → t.status.sanitized = false ∧
    t.status.nodataIn = false ∧ t.status.nodataOut = false ∧ t.status.trunc = false ∧
    t.status.firstTrunc = 0

/-- 10_state.md R37: the counter wraps modulo 2^32, and nothing else moves it. -/
def Obligations.FrameCounterCountsCompletions : Prop :=
  (∀ s t : State, CanProcess s → exec .process s = .next t →
    t.frameCnt.toNat = (s.frameCnt.toNat + 1) % 2 ^ 32) ∧
  (∀ s t : State, step s = .next t → s.pending.head? ≠ some .rst →
    ¬NextIsCommand s 0x0000000F#32 → ¬(NextIsCommand s 0x00000002#32 ∧ CanProcess s) →
    t.frameCnt = s.frameCnt) ∧
  ∀ s t : State, step s = .next t →
    (s.pending.head? = some .rst ∨ NextIsCommand s 0x0000000F#32) → t.frameCnt = 0

/-- 10_state.md R40: bus writes write only the inputs, apart from `CFG_VALID`; commands other than
SOFT_RESET write only the outputs, and SOFT_RESET rewrites everything but `IN_BUF`. -/
def Obligations.WritersOfEachRegister : Prop :=
  (∀ (s t : State) (w : Word), command w s = .next t → w ≠ 0x0000000F#32 → SameInputs s t) ∧
  (∀ s : State, ∃ t, command 0x0000000F#32 s = .next t ∧ ReadsAsReset s.bufBits t ∧
    ∀ j, inElem t j = inElem s j) ∧
  ∀ (s t : State) (width : Nat) (off : Offset) (v : Word), off ≠ 0x00008#20 →
    perform (.busWrite width off v) s = .next t →
    SameOutputs s t ∧ t.bufBits = s.bufBits ∧
      (t.status = s.status ∨
        (t.status = { s.status with cfgValid := false } ∧ ∃ r, target s width off = some r ∧
          (r = .ctrl ∨ ∃ i, r = .bound i)))

/-! ### PROCESS: guard, length check, write-back, frame -/

/-- 41_engine.md R97. -/
def Obligations.ProcessNeedsValidConfiguration : Prop :=
  ∀ s : State, s.status.fatal = false → s.status.cfgValid = false →
    exec .process s = .next
      (s.setStatus { s.status with done := false, err := .notConfigured })

/-- 41_engine.md R99: the sanitized length must be 0 or a boundary, or the error is fatal; a frame with
an invalid tag never fails. -/
def Obligations.ProcessChecksTheLength : Prop :=
  (∀ s : State, s.status.fatal = false → s.status.cfgValid = true →
    ¬(frameLen s = 0 ∨ ∃ i, i < layers s ∧ frameLen s = up s i) →
    exec .process s = .next
      (s.setStatus { s.status with done := false, fatal := true, err := .lenMisaligned })) ∧
  (∀ s : State, s.status.fatal = false → s.status.cfgValid = true →
    (frameLen s = 0 ∨ ∃ i, i < layers s ∧ frameLen s = up s i) →
    ∃ t, exec .process s = .next t ∧ t.status.done = true ∧ t.status.fatal = false) ∧
  ∀ s : State, decodeTag s.inTag s.ctrl.ifmt = none → frameLen s = 0

/-- 41_engine.md R116: what a PROCESS that completes writes back, in terms of the stages R98 to R114. -/
def Obligations.ProcessWritesBackAllResults : Prop :=
  ∀ s : State, CanProcess s → ∃ t, exec .process s = .next t ∧
    t.outTag = encodeTag (tagOut s) s.ctrl.ofmt ∧ t.outLen = outputLen s ∧
    (∀ j, j < s.bufBits.toNat → outElem t j = payloadOut s j) ∧
    (∀ i, t.applied.getLsbD i = (decide (i < layers s) && newlyApplied s i)) ∧
    (∀ i, t.cumul.getLsbD i = (decide (i < layers s) && cumulative s i)) ∧
    (∀ i, t.reach.getLsbD i = (decide (i < layers s) && reached s i)) ∧
    t.status.sanitized = sanitized s ∧
    t.status.nodataIn = decide (tag0 s = .sync ∧ frameLen s = 0) ∧
    t.status.nodataOut = nodataOut s ∧ t.status.trunc = (firstTrunc s).isSome ∧
    t.status.firstTrunc.toNat = (firstTrunc s).getD 0 ∧
    t.status.done = true ∧ t.status.err = .ok ∧
    t.status.cfgValid = s.status.cfgValid ∧ t.status.fatal = s.status.fatal ∧
    t.frameCnt = s.frameCnt + 1

/-- 41_engine.md R117: PROCESS writes no configuration or input register, a second PROCESS computes the
same outputs, and no input element is an output element. -/
def Obligations.ProcessKeepsItsInputs : Prop :=
  (∀ s t : State, exec .process s = .next t → SameInputs s t ∧ SameHost s t) ∧
  (∀ s t : State, CanProcess s → exec .process s = .next t →
    exec .process t = .next { t with frameCnt := t.frameCnt + 1 }) ∧
  ∀ (s : State) (j : Nat) (v : Elem), SameOutputs s (s.setInElem j v)

/-! ### PROCESS: the stages, as the outputs show them -/

/-- A frame whose tag is neither SYNC nor FER is a total loss: it reaches no layer and leaves FER with no
payload (41_engine.md section 2; the spec's R122 marks the outputs as derived). -/
def Obligations.SanitizedFrameIsTotalLoss : Prop :=
  ∀ s : State, s.status.fatal = false → s.status.cfgValid = true → TopologyLegal s →
    decodeTag s.inTag s.ctrl.ifmt = none → ∃ t, exec .process s = .next t ∧
      t.outTag = encodeTag .fer s.ctrl.ofmt ∧ t.outLen = 0 ∧
      (∀ j, j < s.bufBits.toNat → outElem t j = 0) ∧
      t.applied = 0 ∧ t.reach = 0 ∧ (∀ i, t.cumul.getLsbD i = decide (i < layers s)) ∧
      t.status.sanitized = true ∧ t.inLen = s.inLen

/-- 41_engine.md R100, shown by `REACH`. -/
def Obligations.ReachIsTheLengthComparison : Prop :=
  ∀ s t : State, CanProcess s → exec .process s = .next t → ∀ i,
    (t.reach.getLsbD i = true ↔ i < layers s ∧ (up s i).toNat ≤ (frameLen s).toNat)

/-- The reached layers form a prefix (41_engine.md section 2; R101 marks itself as derived). -/
def Obligations.ReachedLayersFormAPrefix : Prop :=
  ∀ s : State, TopologyLegal s → LengthLegal s →
    (frameLen s = 0 → ∀ i, reached s i = false) ∧
    (frameLen s ≠ 0 → ∃ k, (k < layers s ∧ up s k = frameLen s) ∧
      (∀ m, m < layers s → up s m = frameLen s → m = k) ∧
      ∀ i, reached s i = true ↔ i ≤ k)

/-- 41_engine.md R102: erased and intact layers, and a flag of an unreached or unconfigured layer has no
effect on any output. -/
def Obligations.UnreachedFlagsHaveNoEffect : Prop :=
  (∀ (s : State) (i : Nat), (erased s i = true ↔ reached s i = true ∧ s.flags.getLsbD i = true) ∧
    (intact s i = true ↔ reached s i = true ∧ s.flags.getLsbD i = false)) ∧
  ∀ (s : State) (f : Word), (∀ i, reached s i = true → f.getLsbD i = s.flags.getLsbD i) →
    ∃ t, exec .process s = .next t ∧ exec .process (s.setFlags f) = .next (t.setFlags f)

/-- PROCESS reads only the elements inside reached, intact layers (10_state.md section 3): another value
anywhere else in `IN_BUF` changes no output. -/
def Obligations.OnlyIntactLayersAreRead : Prop :=
  ∀ (s : State) (j : Nat) (v : Elem),
    (∀ i, intact s i = true → ¬((lo s i).toNat ≤ j ∧ j < (up s i).toNat)) →
    ∃ t, exec .process s = .next t ∧ exec .process (s.setInElem j v) = .next (t.setInElem j v)

/-- 41_engine.md R104: in a legal topology, the overlay copies the intact layers and leaves the sentinel
everywhere else. -/
def Obligations.OverlayCopiesIntactLayers : Prop :=
  ∀ s : State, TopologyLegal s →
    (∀ i j, i < layers s → (lo s i).toNat ≤ j → j < (up s i).toNat →
      overlay s j = if intact s i = true then inElem s j else 0) ∧
    ∀ j, (up s (layers s - 1)).toNat ≤ j → overlay s j = 0

/-- 41_engine.md R106. -/
def Obligations.LayeredTruncatesAtLowestErased : Prop :=
  ∀ s t : State, CanProcess s → s.ctrl.mode = .layered → exec .process s = .next t →
    (∀ k, erased s k = true → (∀ m, m < k → erased s m = false) →
      firstTrunc s = some k ∧ t.outLen = lo s k ∧ t.status.trunc = true) ∧
    ((∀ k, erased s k = false) → t.outLen = frameLen s ∧ t.status.trunc = false) ∧
    (TopologyLegal s → frameLen s = 0 → t.status.trunc = false)

/-- The source's descending scan (41_engine.md R107, which marks itself as derived): LAYERED truncation is
the scan from the highest layer down that shortens the length at every erased layer. -/
def Obligations.LayeredEqualsTheDescendingScan : Prop :=
  ∀ s : State, s.ctrl.mode = .layered →
    outputLen s = (List.range (layers s)).reverse.foldl
      (fun l i => if erased s i = true then lo s i else l) (frameLen s)

/-- 41_engine.md R108: with `k` the highest reached layer; the erased layers below the run are kept,
blank in the overlay, and make the frame FER. -/
def Obligations.IndividualTruncatesTheTopRun : Prop :=
  ∀ s t : State, CanProcess s → s.ctrl.mode = .individual → exec .process s = .next t →
    (TopologyLegal s → ∀ i, erased s i = true → (∀ a, firstTrunc s = some a → i < a) →
      up s i ≤ t.outLen ∧ t.outTag = encodeTag .fer s.ctrl.ofmt ∧
      ∀ j, (lo s i).toNat ≤ j → j < (up s i).toNat → overlay s j = 0) ∧
    (∀ k a, frameLen s ≠ 0 → (reached s k = true ∧ ∀ m, k < m → reached s m = false) → a ≤ k →
      (∀ m, a ≤ m → m ≤ k → erased s m = true) → (∀ b, a = b + 1 → erased s b = false) →
      firstTrunc s = some a ∧ t.outLen = lo s a ∧ t.status.trunc = true) ∧
    ((frameLen s = 0 ∨ ∃ k, (reached s k = true ∧ ∀ m, k < m → reached s m = false) ∧
      erased s k = false) → t.outLen = frameLen s ∧ t.status.trunc = false)

/-- An erased layer that INDIVIDUAL keeps has its length and is blank (41_engine.md R109, which marks
itself as derived). -/
def Obligations.IndividualKeepsBlankLayers : Prop :=
  ∀ s t : State, CanProcess s → TopologyLegal s → s.ctrl.mode = .individual →
    exec .process s = .next t → ∀ i, erased s i = true →
    (∀ k, firstTrunc s = some k → i < k) →
    up s i ≤ t.outLen ∧
      ∀ j, (lo s i).toNat ≤ j → j < (up s i).toNat → outElem t j = 0

/-- 41_engine.md R110, shown by `APPLIED`. -/
def Obligations.AppliedIsErasureOrCascade : Prop :=
  ∀ s t : State, CanProcess s → exec .process s = .next t → ∀ i,
    (t.applied.getLsbD i = true ↔ i < layers s ∧
      (erased s i = true ∨ ∃ k, firstTrunc s = some k ∧ k < i ∧ intact s i = true))

/-- 41_engine.md R112, shown by `OUT_TAG`, and where a zero in the retained length comes from. -/
def Obligations.OutputTagFollowsThePayload : Prop :=
  ∀ s t : State, CanProcess s → exec .process s = .next t →
    (t.outLen ≠ 0 → (∃ j, j < t.outLen.toNat ∧ overlay s j = 0) →
      t.outTag = encodeTag .fer s.ctrl.ofmt) ∧
    (t.outLen ≠ 0 → (∀ j, j < t.outLen.toNat → overlay s j ≠ 0) →
      t.outTag = encodeTag .sync s.ctrl.ofmt) ∧
    (t.outLen = 0 → (∃ i, erased s i = true) → t.outTag = encodeTag .fer s.ctrl.ofmt) ∧
    (t.outLen = 0 → (∀ i, erased s i = false) → t.outTag = encodeTag (tag0 s) s.ctrl.ofmt) ∧
    (TopologyLegal s → ∀ j, j < t.outLen.toNat → overlay s j = 0 →
      ∃ i, ((lo s i).toNat ≤ j ∧ j < (up s i).toNat) ∧
        ((s.ctrl.mode = .individual ∧ erased s i = true) ∨
          (intact s i = true ∧ inElem s j = 0)))

/-- 41_engine.md R113, shown by `OUT_BUF`. -/
def Obligations.OutputBufferIsFullyRewritten : Prop :=
  ∀ s t : State, CanProcess s → exec .process s = .next t → ∀ j, j < s.bufBits.toNat →
    outElem t j = if j < t.outLen.toNat then overlay s j else 0

/-- 41_engine.md R114, shown by `CUMUL`. -/
def Obligations.CumulativeAttribution : Prop :=
  ∀ s t : State, CanProcess s → exec .process s = .next t → ∀ i,
    (t.cumul.getLsbD i = true ↔ i < layers s ∧ ¬(tagOut s = .sync ∧ t.outLen = 0) ∧
      (t.outLen < up s i ∨ (tagOut s = .fer ∧ up s i ≤ t.outLen ∧
        ∀ j, (lo s i).toNat ≤ j → j < (up s i).toNat → overlay s j = 0)))

/-! ### PROCESS: the properties of the engine -/

/-- The output length is legal and never above the input's (41_engine.md R119, which marks itself as
derived). -/
def Obligations.OutputLengthIsLegal : Prop :=
  ∀ s t : State, CanProcess s → TopologyLegal s → exec .process s = .next t →
    (t.outLen = 0 ∨ ∃ i, i < layers s ∧ t.outLen = up s i) ∧ t.outLen ≤ frameLen s

/-- More erasure never lengthens the output, in either mode (41_engine.md R120, which marks itself as
derived). -/
def Obligations.ErasureIsMonotone : Prop :=
  ∀ (s t u : State) (f : Word), CanProcess s → TopologyLegal s →
    (∀ i, i < layers s → s.flags.getLsbD i = true → f.getLsbD i = true) →
    exec .process s = .next t → exec .process (s.setFlags f) = .next u → u.outLen ≤ t.outLen

/-- With every flag intact, the payload passes through, and the tag does exactly for tag-consistent
frames (41_engine.md R121, which marks itself as derived). -/
def Obligations.AllIntactRoundTrip : Prop :=
  ∀ (s t : State) (tin : Tag), CanProcess s → TopologyLegal s → inputTag s = some tin →
    (∀ i, i < layers s → s.flags.getLsbD i = false) → exec .process s = .next t →
    t.outLen = s.inLen ∧ (∀ j, j < s.inLen.toNat → outElem t j = inElem s j) ∧
    (t.outTag = encodeTag tin s.ctrl.ofmt ↔
      (s.inLen = 0 ∨ (tin = .fer ↔ ∃ j, j < s.inLen.toNat ∧ inElem s j = 0))) ∧
    (s.ctrl.ifmt = s.ctrl.ofmt →
      (s.inLen = 0 ∨ (tin = .fer ↔ ∃ j, j < s.inLen.toNat ∧ inElem s j = 0)) →
      t.outTag = s.inTag)

/-- Frames without payload, for every `FLAGS` (41_engine.md R122, which marks itself as derived). -/
def Obligations.FramesWithoutPayload : Prop :=
  ∀ s t : State, CanProcess s → TopologyLegal s → frameLen s = 0 → exec .process s = .next t →
    t.outLen = 0 ∧ t.applied = 0 ∧ t.reach = 0 ∧ t.outTag = encodeTag (tag0 s) s.ctrl.ofmt ∧
    (tag0 s = .sync → t.cumul = 0 ∧ t.status.nodataIn = true ∧ t.status.nodataOut = true) ∧
    (tag0 s = .fer → ∀ i, t.cumul.getLsbD i = decide (i < layers s))

/-- When every reached layer is erased, both modes lose the frame (41_engine.md R123, which marks itself
as derived). -/
def Obligations.AllReachedErasedLosesTheFrame : Prop :=
  ∀ s t : State, CanProcess s → TopologyLegal s → frameLen s ≠ 0 →
    (∀ i, reached s i = true → s.flags.getLsbD i = true) → exec .process s = .next t →
    firstTrunc s = some 0 ∧ t.outLen = 0 ∧ t.outTag = encodeTag .fer s.ctrl.ofmt ∧
    t.applied = t.reach ∧ (∀ i, t.cumul.getLsbD i = decide (i < layers s)) ∧
    ∀ j, j < s.bufBits.toNat → outElem t j = 0

/-! ### The bus -/

/-- 20_memory.md R42: the address map. -/
def Obligations.AddressMap : Prop :=
  ∀ s : State,
    (target s 32 0x00000#20 = some .ctrl ∧ target s 32 0x00004#20 = some .status ∧
      target s 32 0x00008#20 = some .cmd ∧ target s 32 0x0000C#20 = some .param ∧
      target s 32 0x00010#20 = some .inTag ∧ target s 32 0x00014#20 = some .inLen ∧
      target s 32 0x00018#20 = some .flags ∧ target s 32 0x0001C#20 = some .frameCnt ∧
      target s 32 0x00020#20 = some .outTag ∧ target s 32 0x00024#20 = some .outLen ∧
      target s 32 0x00028#20 = some .applied ∧ target s 32 0x0002C#20 = some .cumul ∧
      target s 32 0x00030#20 = some .reach) ∧
    (∀ i : Fin 32, target s 32 (BitVec.ofNat 20 (0x00080 + 4 * i.val)) = some (.bound i)) ∧
    (∀ j, j < s.bufBits.toNat →
      target s 32 (BitVec.ofNat 20 (0x40000 + 4 * j)) = some (.inBuf j) ∧
      target s 32 (BitVec.ofNat 20 (0x80000 + 4 * j)) = some (.outBuf j)) ∧
    ∀ off : Offset, ¬Mapped s.bufBits.toNat off.toNat → target s 32 off = none

/-- 20_memory.md R48: an access that is unmapped, not 32 bits wide or misaligned ends with an error
response and changes nothing; no other access does. -/
def Obligations.BusErrorsChangeNothing : Prop :=
  ∀ (s : State) (width : Nat) (off : Offset) (v : Word),
    (¬(width = 32 ∧ Mapped s.bufBits.toNat off.toNat) →
      perform (.busRead width off) s = .next (s.answer (.busError off)) ∧
      perform (.busWrite width off v) s = .next (s.answer (.busError off))) ∧
    (width = 32 ∧ Mapped s.bufBits.toNat off.toNat →
      (∃ x, perform (.busRead width off) s = .next (s.answer (.data x))) ∧
      ∃ t : State, perform (.busWrite width off v) s = .next (t.answer .written))

/-- 20_memory.md R45: a read returns the register, its reserved bits 0, or ends in a bus error, and never
changes state. The second part gives the value of each register: 16-bit ones zero-extended, those of
one word whole, and the three attribution vectors in the lanes of the layers now configured. Their other
lanes are a reading of the model, stated apart in `AttributionVectorsReadAsStored`. -/
def Obligations.ReadsNeverChangeState : Prop :=
  (∀ (s : State) (width : Nat) (off : Offset) (rest : List Input),
    s.pending = .busRead width off :: rest → ∃ x, step s = .next ((s.setPending rest).answer x) ∧
      match target s width off with
      | some r => x = .data (readReg s r) ∧ readReg s r &&& reservedBits r = 0
      | none => x = .busError off) ∧
  ∀ s : State,
    (readReg s .ctrl = ctrlWord s.ctrl ∧ readReg s .status = statusWord s.status ∧
      readReg s .cmd = 0 ∧ readReg s .param = s.bufBits ++ 0x00#8 ++ 0x20#8) ∧
    (readReg s .inTag = s.inTag.setWidth 32 ∧ readReg s .inLen = s.inLen.setWidth 32 ∧
      readReg s .outTag = s.outTag.setWidth 32 ∧ readReg s .outLen = s.outLen.setWidth 32 ∧
      ∀ i : Fin 32, readReg s (.bound i) = s.bound[i].setWidth 32) ∧
    (readReg s .flags = s.flags ∧ readReg s .frameCnt = s.frameCnt) ∧
    (∀ i, i < layers s →
      (readReg s .applied).getLsbD i = s.applied.getLsbD i ∧
      (readReg s .cumul).getLsbD i = s.cumul.getLsbD i ∧
      (readReg s .reach).getLsbD i = s.reach.getLsbD i) ∧
    ∀ j, readReg s (.inBuf j) = (inElem s j).setWidth 32 ∧
      readReg s (.outBuf j) = (outElem s j).setWidth 32

/-- 20_memory.md R46: a legal write stores the writable bits of its register and its only side effects
are a command and clearing `CFG_VALID`; any other write raises the bus error. What the attribution vectors
read as after a write of `CTRL` is a reading of the model, stated apart in
`AttributionVectorsReadAsStored`. -/
def Obligations.WritesReachOnlyTheirRegister : Prop :=
  ∀ (s : State) (width : Nat) (off : Offset) (v : Word),
    (target s width off = none →
      perform (.busWrite width off v) s = .next (s.answer (.busError off))) ∧
    (target s width off = some .cmd →
      ∃ t, command v s = .next t ∧
        perform (.busWrite width off v) s = .next (t.answer .written)) ∧
    ∀ r, target s width off = some r → r ≠ .cmd →
      ∃ t, perform (.busWrite width off v) s = .next t ∧ t.resp = some .written ∧
        (r ∈ [Reg.ctrl, .inTag, .inLen, .flags] ∨ (∃ i, r = .bound i) ∨ (∃ j, r = .inBuf j) →
          readReg t r = v &&& ~~~(reservedBits r)) ∧
        (∀ r', r' ≠ r → r' ≠ .status → ¬(r = .ctrl ∧ r' ∈ [Reg.applied, .cumul, .reach]) →
          readReg t r' = readReg s r') ∧
        (r = .ctrl ∨ (∃ i, r = .bound i) → t.status = { s.status with cfgValid := false }) ∧
        (r ≠ .ctrl → (∀ i, r ≠ .bound i) → t.status = s.status) ∧
        t.pending = s.pending ∧ t.rstCount = s.rstCount

/-- 20_memory.md R50: read-only registers ignore writes, and `CMD` reads 0. -/
def Obligations.ReadOnlyRegistersIgnoreWrites : Prop :=
  (∀ (s : State) (off : Offset) (v : Word) (r : Reg), target s 32 off = some r →
    (r ∈ [Reg.status, .param, .frameCnt, .outTag, .outLen, .applied, .cumul, .reach] ∨
      ∃ j, r = .outBuf j) →
    perform (.busWrite 32 off v) s = .next (s.answer .written)) ∧
  ∀ s : State, perform (.busRead 32 0x00008#20) s = .next (s.answer (.data 0))

/-- 40_control.md R83: a configuration write stores the writable bits and clears `CFG_VALID`, whatever
the lock and the value held, and changes no other field; where the fields of `CTRL` stand (10_state.md R14)
is the second part. -/
def Obligations.ConfigurationWritesClearCfgValid : Prop :=
  (∀ (s : State) (v : Word), perform (.busWrite 32 0x00000#20 v) s = .next { s with
    ctrl := ctrlOfWord v, status := { s.status with cfgValid := false }, resp := some .written }) ∧
  ((∀ c : Ctrl, (ctrlWord c).getLsbD 0 = decide (c.mode = .individual) ∧
      (ctrlWord c).getLsbD 1 = decide (c.ifmt = .byte) ∧
      (ctrlWord c).getLsbD 2 = decide (c.ofmt = .byte) ∧ (ctrlWord c).extractLsb' 8 5 = c.nm1) ∧
    ∀ v : Word, ctrlWord (ctrlOfWord v) = v &&& 0x00001F07#32 ∧
      ((ctrlOfWord v).mode = if v.getLsbD 0 = true then .individual else .layered) ∧
      ((ctrlOfWord v).ifmt = if v.getLsbD 1 = true then .byte else .word) ∧
      ((ctrlOfWord v).ofmt = if v.getLsbD 2 = true then .byte else .word) ∧
      (ctrlOfWord v).nm1 = v.extractLsb' 8 5) ∧
  ∀ (s : State) (i : Fin 32) (v : Word), ∃ t,
    perform (.busWrite 32 (BitVec.ofNat 20 (0x00080 + 4 * i.val)) v) s = .next { s with
      bound := t, status := { s.status with cfgValid := false }, resp := some .written } ∧
    ∀ k : Fin 32, t[k] = if k = i then v.setWidth 16 else s.bound[k]

/-- 20_memory.md R49: the reserved bits of every register read as 0 in every state, and a write to them is
ignored: two words that agree on the other bits write the same. -/
def Obligations.ReservedBitsReadZero : Prop :=
  ∀ (s : State) (r : Reg), readReg s r &&& reservedBits r = 0 ∧
    ∀ v w : Word, v &&& ~~~(reservedBits r) = w &&& ~~~(reservedBits r) →
      writeReg s r v = writeReg s r w

/-- 20_memory.md R43: a read of an input element returns it zero-extended; a write stores its low half and
leaves every other element and register alone. -/
def Obligations.InputElementsReadBack : Prop :=
  ∀ (s : State) (j : Nat) (v : Word), j < s.bufBits.toNat →
    ∃ t, perform (.busWrite 32 (BitVec.ofNat 20 (0x40000 + 4 * j)) v) s = .next t ∧
      (∀ k, inElem t k = if k = j then v.setWidth 16 else inElem s k) ∧
      perform (.busRead 32 (BitVec.ofNat 20 (0x40000 + 4 * j))) s =
        .next (s.answer (.data ((inElem s j).setWidth 32))) ∧
      t = { s with inBuf := t.inBuf, resp := some .written }

/-- 10_state.md R29: where each field of `STATUS` stands; 30_encoding.md R73: the codes of `ERR`. -/
def Obligations.StatusLayout : Prop :=
  (errBits .ok = 0x0#4 ∧ errBits .cfgBoundZero = 0x1#4 ∧ errBits .cfgBoundOrder = 0x2#4 ∧
    errBits .cfgBoundCap = 0x3#4 ∧ errBits .lenMisaligned = 0x4#4 ∧
    errBits .notConfigured = 0x8#4 ∧ errBits .illegalCmd = 0x9#4) ∧
  ∀ x : Status,
    (statusWord x).getLsbD 0 = x.cfgValid ∧ (statusWord x).getLsbD 1 = x.done ∧
    (statusWord x).getLsbD 2 = x.fatal ∧ (statusWord x).getLsbD 3 = false ∧
    (statusWord x).extractLsb' 4 4 = errBits x.err ∧
    (statusWord x).getLsbD 8 = x.sanitized ∧ (statusWord x).getLsbD 9 = x.nodataIn ∧
    (statusWord x).getLsbD 10 = x.nodataOut ∧ (statusWord x).getLsbD 11 = x.trunc ∧
    (statusWord x).extractLsb' 12 4 = 0#4 ∧ (statusWord x).extractLsb' 16 5 = x.firstTrunc ∧
    (statusWord x).extractLsb' 21 11 = 0#11

/-- 10_state.md R36: the layout of `PARAM`, and that no step changes it. -/
def Obligations.ParamIsConstant : Prop :=
  (∀ s : State, (readReg s .param).extractLsb' 0 8 = 0x20#8 ∧
    (readReg s .param).extractLsb' 8 8 = 0#8 ∧
    (readReg s .param).extractLsb' 16 16 = s.bufBits) ∧
  ∀ s t : State, step s = .next t → readReg t .param = readReg s .param

/-! ### Resets and the invariant -/

/-- 40_control.md R86 and 70_reset_and_hazards.md R144: both resets leave every register at its reset
value, even under the lock; SOFT_RESET leaves `IN_BUF` unchanged; `PARAM` is constant; no other command
executes under the lock. The model's own fields keep their values under SOFT_RESET. -/
def Obligations.BothResetsLeaveTheResetValues : Prop :=
  (∀ s : State, (∀ rest, s.pending = .rst :: rest →
      ∃ t, step s = .next t ∧ ReadsAsReset s.bufBits t ∧ t.pending = rest) ∧
    ∃ t, exec .softReset s = .next t ∧ ReadsAsReset s.bufBits t ∧
      (∀ j, inElem t j = inElem s j) ∧ t.bufBits = s.bufBits ∧ SameHost s t) ∧
  ∀ (s : State) (i : Instr), s.status.fatal = true → i ≠ .softReset → exec i s = .next s

/-- `State.reset` reads as the reset table says at the capacity of log entry 1 (the model's choice), and
after `RST` every element of `IN_BUF` is the free value of log entry 2 until it is written. -/
def Obligations.ResetStateAndFreeInputBuffer : Prop :=
  ReadsAsReset 640#16 State.reset ∧
  ∀ (s : State) (j k : Nat) (v : Elem),
    inElem (hardReset s) j = Config.inBufAfterRst (s.rstCount + 1) j ∧
    (j ≠ k → inElem ((hardReset s).setInElem k v) j = Config.inBufAfterRst (s.rstCount + 1) j)

/-- Every operation of the machine keeps the one form of the buffers (log entry 12). -/
def Obligations.StepsKeepTheBufferForm : Prop :=
  ∀ s t : State, Memory.wf s → step s = .next t → Memory.wf t

/-- The invariant of the machine holds after reset, at every capacity the spec permits. -/
def Obligations.ResetMeetsTheInvariant : Prop :=
  State.reset.Inv ∧ ∀ b : Half, 640 ≤ b.toNat → (State.resetWith b).Inv

/-- HEADLINE. Every step keeps the invariant of the machine, in every state that meets it. -/
def Obligations.EveryStepKeepsTheInvariant : Prop :=
  ∀ s t : State, s.Inv → step s = .next t → t.Inv

/-! ### A reading of the model -/

/-- The model's reading, not a rule (log entry 6, DEDUCED): the attribution vectors read as the last PROCESS
stored them, all 32 lanes, and a later write of `CTRL`, which may lower `NM1`, does not change what they
read as. -/
def Obligations.AttributionVectorsReadAsStored : Prop :=
  ∀ s : State,
    (readReg s .applied = s.applied ∧ readReg s .cumul = s.cumul ∧ readReg s .reach = s.reach) ∧
    ∀ v : Word, ∃ t, perform (.busWrite 32 0x00000#20 v) s = .next t ∧
      ∀ r ∈ [Reg.applied, .cumul, .reach], readReg t r = readReg s r
end

