-- ==== Sys2Proof/Laws/State.lean ====
section
/-! SUPPORT. What each update of the state leaves in each field, true by unfolding the update once. -/

namespace Sys2Proof.Machine

/-! ### `State.setCtrl` -/

@[simp] theorem State.setCtrl_bufBits (s : State) (c : Ctrl) :
    (s.setCtrl c).bufBits = s.bufBits := rfl
@[simp] theorem State.setCtrl_ctrl (s : State) (c : Ctrl) : (s.setCtrl c).ctrl = c := rfl
@[simp] theorem State.setCtrl_bound (s : State) (c : Ctrl) : (s.setCtrl c).bound = s.bound := rfl
@[simp] theorem State.setCtrl_inTag (s : State) (c : Ctrl) : (s.setCtrl c).inTag = s.inTag := rfl
@[simp] theorem State.setCtrl_inLen (s : State) (c : Ctrl) : (s.setCtrl c).inLen = s.inLen := rfl
@[simp] theorem State.setCtrl_flags (s : State) (c : Ctrl) : (s.setCtrl c).flags = s.flags := rfl
@[simp] theorem State.setCtrl_inBuf (s : State) (c : Ctrl) : (s.setCtrl c).inBuf = s.inBuf := rfl
@[simp] theorem State.setCtrl_outTag (s : State) (c : Ctrl) : (s.setCtrl c).outTag = s.outTag := rfl
@[simp] theorem State.setCtrl_outLen (s : State) (c : Ctrl) : (s.setCtrl c).outLen = s.outLen := rfl
@[simp] theorem State.setCtrl_outBuf (s : State) (c : Ctrl) : (s.setCtrl c).outBuf = s.outBuf := rfl
@[simp] theorem State.setCtrl_applied (s : State) (c : Ctrl) :
    (s.setCtrl c).applied = s.applied := rfl
@[simp] theorem State.setCtrl_cumul (s : State) (c : Ctrl) : (s.setCtrl c).cumul = s.cumul := rfl
@[simp] theorem State.setCtrl_reach (s : State) (c : Ctrl) : (s.setCtrl c).reach = s.reach := rfl
@[simp] theorem State.setCtrl_status (s : State) (c : Ctrl) : (s.setCtrl c).status = s.status := rfl
@[simp] theorem State.setCtrl_frameCnt (s : State) (c : Ctrl) :
    (s.setCtrl c).frameCnt = s.frameCnt := rfl
@[simp] theorem State.setCtrl_rstCount (s : State) (c : Ctrl) :
    (s.setCtrl c).rstCount = s.rstCount := rfl
@[simp] theorem State.setCtrl_pending (s : State) (c : Ctrl) :
    (s.setCtrl c).pending = s.pending := rfl
@[simp] theorem State.setCtrl_resp (s : State) (c : Ctrl) : (s.setCtrl c).resp = s.resp := rfl

/-! ### `State.setBound` -/

@[simp] theorem State.setBound_bufBits (s : State) (i : Fin 32) (v : Half) :
    (s.setBound i v).bufBits = s.bufBits := rfl
@[simp] theorem State.setBound_ctrl (s : State) (i : Fin 32) (v : Half) :
    (s.setBound i v).ctrl = s.ctrl := rfl
@[simp] theorem State.setBound_bound (s : State) (i : Fin 32) (v : Half) :
    (s.setBound i v).bound = s.bound.set i.val v i.isLt := rfl
@[simp] theorem State.setBound_inTag (s : State) (i : Fin 32) (v : Half) :
    (s.setBound i v).inTag = s.inTag := rfl
@[simp] theorem State.setBound_inLen (s : State) (i : Fin 32) (v : Half) :
    (s.setBound i v).inLen = s.inLen := rfl
@[simp] theorem State.setBound_flags (s : State) (i : Fin 32) (v : Half) :
    (s.setBound i v).flags = s.flags := rfl
@[simp] theorem State.setBound_inBuf (s : State) (i : Fin 32) (v : Half) :
    (s.setBound i v).inBuf = s.inBuf := rfl
@[simp] theorem State.setBound_outTag (s : State) (i : Fin 32) (v : Half) :
    (s.setBound i v).outTag = s.outTag := rfl
@[simp] theorem State.setBound_outLen (s : State) (i : Fin 32) (v : Half) :
    (s.setBound i v).outLen = s.outLen := rfl
@[simp] theorem State.setBound_outBuf (s : State) (i : Fin 32) (v : Half) :
    (s.setBound i v).outBuf = s.outBuf := rfl
@[simp] theorem State.setBound_applied (s : State) (i : Fin 32) (v : Half) :
    (s.setBound i v).applied = s.applied := rfl
@[simp] theorem State.setBound_cumul (s : State) (i : Fin 32) (v : Half) :
    (s.setBound i v).cumul = s.cumul := rfl
@[simp] theorem State.setBound_reach (s : State) (i : Fin 32) (v : Half) :
    (s.setBound i v).reach = s.reach := rfl
@[simp] theorem State.setBound_status (s : State) (i : Fin 32) (v : Half) :
    (s.setBound i v).status = s.status := rfl
@[simp] theorem State.setBound_frameCnt (s : State) (i : Fin 32) (v : Half) :
    (s.setBound i v).frameCnt = s.frameCnt := rfl
@[simp] theorem State.setBound_rstCount (s : State) (i : Fin 32) (v : Half) :
    (s.setBound i v).rstCount = s.rstCount := rfl
@[simp] theorem State.setBound_pending (s : State) (i : Fin 32) (v : Half) :
    (s.setBound i v).pending = s.pending := rfl
@[simp] theorem State.setBound_resp (s : State) (i : Fin 32) (v : Half) :
    (s.setBound i v).resp = s.resp := rfl

/-! ### `State.setInTag` -/

@[simp] theorem State.setInTag_bufBits (s : State) (v : Half) :
    (s.setInTag v).bufBits = s.bufBits := rfl
@[simp] theorem State.setInTag_ctrl (s : State) (v : Half) : (s.setInTag v).ctrl = s.ctrl := rfl
@[simp] theorem State.setInTag_bound (s : State) (v : Half) : (s.setInTag v).bound = s.bound := rfl
@[simp] theorem State.setInTag_inTag (s : State) (v : Half) : (s.setInTag v).inTag = v := rfl
@[simp] theorem State.setInTag_inLen (s : State) (v : Half) : (s.setInTag v).inLen = s.inLen := rfl
@[simp] theorem State.setInTag_flags (s : State) (v : Half) : (s.setInTag v).flags = s.flags := rfl
@[simp] theorem State.setInTag_inBuf (s : State) (v : Half) : (s.setInTag v).inBuf = s.inBuf := rfl
@[simp] theorem State.setInTag_outTag (s : State) (v : Half) :
    (s.setInTag v).outTag = s.outTag := rfl
@[simp] theorem State.setInTag_outLen (s : State) (v : Half) :
    (s.setInTag v).outLen = s.outLen := rfl
@[simp] theorem State.setInTag_outBuf (s : State) (v : Half) :
    (s.setInTag v).outBuf = s.outBuf := rfl
@[simp] theorem State.setInTag_applied (s : State) (v : Half) :
    (s.setInTag v).applied = s.applied := rfl
@[simp] theorem State.setInTag_cumul (s : State) (v : Half) : (s.setInTag v).cumul = s.cumul := rfl
@[simp] theorem State.setInTag_reach (s : State) (v : Half) : (s.setInTag v).reach = s.reach := rfl
@[simp] theorem State.setInTag_status (s : State) (v : Half) :
    (s.setInTag v).status = s.status := rfl
@[simp] theorem State.setInTag_frameCnt (s : State) (v : Half) :
    (s.setInTag v).frameCnt = s.frameCnt := rfl
@[simp] theorem State.setInTag_rstCount (s : State) (v : Half) :
    (s.setInTag v).rstCount = s.rstCount := rfl
@[simp] theorem State.setInTag_pending (s : State) (v : Half) :
    (s.setInTag v).pending = s.pending := rfl
@[simp] theorem State.setInTag_resp (s : State) (v : Half) : (s.setInTag v).resp = s.resp := rfl

/-! ### `State.setInLen` -/

@[simp] theorem State.setInLen_bufBits (s : State) (v : Half) :
    (s.setInLen v).bufBits = s.bufBits := rfl
@[simp] theorem State.setInLen_ctrl (s : State) (v : Half) : (s.setInLen v).ctrl = s.ctrl := rfl
@[simp] theorem State.setInLen_bound (s : State) (v : Half) : (s.setInLen v).bound = s.bound := rfl
@[simp] theorem State.setInLen_inTag (s : State) (v : Half) : (s.setInLen v).inTag = s.inTag := rfl
@[simp] theorem State.setInLen_inLen (s : State) (v : Half) : (s.setInLen v).inLen = v := rfl
@[simp] theorem State.setInLen_flags (s : State) (v : Half) : (s.setInLen v).flags = s.flags := rfl
@[simp] theorem State.setInLen_inBuf (s : State) (v : Half) : (s.setInLen v).inBuf = s.inBuf := rfl
@[simp] theorem State.setInLen_outTag (s : State) (v : Half) :
    (s.setInLen v).outTag = s.outTag := rfl
@[simp] theorem State.setInLen_outLen (s : State) (v : Half) :
    (s.setInLen v).outLen = s.outLen := rfl
@[simp] theorem State.setInLen_outBuf (s : State) (v : Half) :
    (s.setInLen v).outBuf = s.outBuf := rfl
@[simp] theorem State.setInLen_applied (s : State) (v : Half) :
    (s.setInLen v).applied = s.applied := rfl
@[simp] theorem State.setInLen_cumul (s : State) (v : Half) : (s.setInLen v).cumul = s.cumul := rfl
@[simp] theorem State.setInLen_reach (s : State) (v : Half) : (s.setInLen v).reach = s.reach := rfl
@[simp] theorem State.setInLen_status (s : State) (v : Half) :
    (s.setInLen v).status = s.status := rfl
@[simp] theorem State.setInLen_frameCnt (s : State) (v : Half) :
    (s.setInLen v).frameCnt = s.frameCnt := rfl
@[simp] theorem State.setInLen_rstCount (s : State) (v : Half) :
    (s.setInLen v).rstCount = s.rstCount := rfl
@[simp] theorem State.setInLen_pending (s : State) (v : Half) :
    (s.setInLen v).pending = s.pending := rfl
@[simp] theorem State.setInLen_resp (s : State) (v : Half) : (s.setInLen v).resp = s.resp := rfl

/-! ### `State.setFlags` -/

@[simp] theorem State.setFlags_bufBits (s : State) (v : Word) :
    (s.setFlags v).bufBits = s.bufBits := rfl
@[simp] theorem State.setFlags_ctrl (s : State) (v : Word) : (s.setFlags v).ctrl = s.ctrl := rfl
@[simp] theorem State.setFlags_bound (s : State) (v : Word) : (s.setFlags v).bound = s.bound := rfl
@[simp] theorem State.setFlags_inTag (s : State) (v : Word) : (s.setFlags v).inTag = s.inTag := rfl
@[simp] theorem State.setFlags_inLen (s : State) (v : Word) : (s.setFlags v).inLen = s.inLen := rfl
@[simp] theorem State.setFlags_flags (s : State) (v : Word) : (s.setFlags v).flags = v := rfl
@[simp] theorem State.setFlags_inBuf (s : State) (v : Word) : (s.setFlags v).inBuf = s.inBuf := rfl
@[simp] theorem State.setFlags_outTag (s : State) (v : Word) :
    (s.setFlags v).outTag = s.outTag := rfl
@[simp] theorem State.setFlags_outLen (s : State) (v : Word) :
    (s.setFlags v).outLen = s.outLen := rfl
@[simp] theorem State.setFlags_outBuf (s : State) (v : Word) :
    (s.setFlags v).outBuf = s.outBuf := rfl
@[simp] theorem State.setFlags_applied (s : State) (v : Word) :
    (s.setFlags v).applied = s.applied := rfl
@[simp] theorem State.setFlags_cumul (s : State) (v : Word) : (s.setFlags v).cumul = s.cumul := rfl
@[simp] theorem State.setFlags_reach (s : State) (v : Word) : (s.setFlags v).reach = s.reach := rfl
@[simp] theorem State.setFlags_status (s : State) (v : Word) :
    (s.setFlags v).status = s.status := rfl
@[simp] theorem State.setFlags_frameCnt (s : State) (v : Word) :
    (s.setFlags v).frameCnt = s.frameCnt := rfl
@[simp] theorem State.setFlags_rstCount (s : State) (v : Word) :
    (s.setFlags v).rstCount = s.rstCount := rfl
@[simp] theorem State.setFlags_pending (s : State) (v : Word) :
    (s.setFlags v).pending = s.pending := rfl
@[simp] theorem State.setFlags_resp (s : State) (v : Word) : (s.setFlags v).resp = s.resp := rfl

/-! ### `State.setInElem` -/

@[simp] theorem State.setInElem_bufBits (s : State) (j : Nat) (v : Elem) :
    (s.setInElem j v).bufBits = s.bufBits := rfl
@[simp] theorem State.setInElem_ctrl (s : State) (j : Nat) (v : Elem) :
    (s.setInElem j v).ctrl = s.ctrl := rfl
@[simp] theorem State.setInElem_bound (s : State) (j : Nat) (v : Elem) :
    (s.setInElem j v).bound = s.bound := rfl
@[simp] theorem State.setInElem_inTag (s : State) (j : Nat) (v : Elem) :
    (s.setInElem j v).inTag = s.inTag := rfl
@[simp] theorem State.setInElem_inLen (s : State) (j : Nat) (v : Elem) :
    (s.setInElem j v).inLen = s.inLen := rfl
@[simp] theorem State.setInElem_flags (s : State) (j : Nat) (v : Elem) :
    (s.setInElem j v).flags = s.flags := rfl
@[simp] theorem State.setInElem_inBuf (s : State) (j : Nat) (v : Elem) :
    (s.setInElem j v).inBuf = bufPut s.inBuf j v := rfl
@[simp] theorem State.setInElem_outTag (s : State) (j : Nat) (v : Elem) :
    (s.setInElem j v).outTag = s.outTag := rfl
@[simp] theorem State.setInElem_outLen (s : State) (j : Nat) (v : Elem) :
    (s.setInElem j v).outLen = s.outLen := rfl
@[simp] theorem State.setInElem_outBuf (s : State) (j : Nat) (v : Elem) :
    (s.setInElem j v).outBuf = s.outBuf := rfl
@[simp] theorem State.setInElem_applied (s : State) (j : Nat) (v : Elem) :
    (s.setInElem j v).applied = s.applied := rfl
@[simp] theorem State.setInElem_cumul (s : State) (j : Nat) (v : Elem) :
    (s.setInElem j v).cumul = s.cumul := rfl
@[simp] theorem State.setInElem_reach (s : State) (j : Nat) (v : Elem) :
    (s.setInElem j v).reach = s.reach := rfl
@[simp] theorem State.setInElem_status (s : State) (j : Nat) (v : Elem) :
    (s.setInElem j v).status = s.status := rfl
@[simp] theorem State.setInElem_frameCnt (s : State) (j : Nat) (v : Elem) :
    (s.setInElem j v).frameCnt = s.frameCnt := rfl
@[simp] theorem State.setInElem_rstCount (s : State) (j : Nat) (v : Elem) :
    (s.setInElem j v).rstCount = s.rstCount := rfl
@[simp] theorem State.setInElem_pending (s : State) (j : Nat) (v : Elem) :
    (s.setInElem j v).pending = s.pending := rfl
@[simp] theorem State.setInElem_resp (s : State) (j : Nat) (v : Elem) :
    (s.setInElem j v).resp = s.resp := rfl

/-! ### `State.setStatus` -/

@[simp] theorem State.setStatus_bufBits (s : State) (x : Status) :
    (s.setStatus x).bufBits = s.bufBits := rfl
@[simp] theorem State.setStatus_ctrl (s : State) (x : Status) : (s.setStatus x).ctrl = s.ctrl := rfl
@[simp] theorem State.setStatus_bound (s : State) (x : Status) :
    (s.setStatus x).bound = s.bound := rfl
@[simp] theorem State.setStatus_inTag (s : State) (x : Status) :
    (s.setStatus x).inTag = s.inTag := rfl
@[simp] theorem State.setStatus_inLen (s : State) (x : Status) :
    (s.setStatus x).inLen = s.inLen := rfl
@[simp] theorem State.setStatus_flags (s : State) (x : Status) :
    (s.setStatus x).flags = s.flags := rfl
@[simp] theorem State.setStatus_inBuf (s : State) (x : Status) :
    (s.setStatus x).inBuf = s.inBuf := rfl
@[simp] theorem State.setStatus_outTag (s : State) (x : Status) :
    (s.setStatus x).outTag = s.outTag := rfl
@[simp] theorem State.setStatus_outLen (s : State) (x : Status) :
    (s.setStatus x).outLen = s.outLen := rfl
@[simp] theorem State.setStatus_outBuf (s : State) (x : Status) :
    (s.setStatus x).outBuf = s.outBuf := rfl
@[simp] theorem State.setStatus_applied (s : State) (x : Status) :
    (s.setStatus x).applied = s.applied := rfl
@[simp] theorem State.setStatus_cumul (s : State) (x : Status) :
    (s.setStatus x).cumul = s.cumul := rfl
@[simp] theorem State.setStatus_reach (s : State) (x : Status) :
    (s.setStatus x).reach = s.reach := rfl
@[simp] theorem State.setStatus_status (s : State) (x : Status) : (s.setStatus x).status = x := rfl
@[simp] theorem State.setStatus_frameCnt (s : State) (x : Status) :
    (s.setStatus x).frameCnt = s.frameCnt := rfl
@[simp] theorem State.setStatus_rstCount (s : State) (x : Status) :
    (s.setStatus x).rstCount = s.rstCount := rfl
@[simp] theorem State.setStatus_pending (s : State) (x : Status) :
    (s.setStatus x).pending = s.pending := rfl
@[simp] theorem State.setStatus_resp (s : State) (x : Status) : (s.setStatus x).resp = s.resp := rfl

/-! ### `State.answer` -/

@[simp] theorem State.answer_bufBits (s : State) (r : Response) :
    (s.answer r).bufBits = s.bufBits := rfl
@[simp] theorem State.answer_ctrl (s : State) (r : Response) : (s.answer r).ctrl = s.ctrl := rfl
@[simp] theorem State.answer_bound (s : State) (r : Response) : (s.answer r).bound = s.bound := rfl
@[simp] theorem State.answer_inTag (s : State) (r : Response) : (s.answer r).inTag = s.inTag := rfl
@[simp] theorem State.answer_inLen (s : State) (r : Response) : (s.answer r).inLen = s.inLen := rfl
@[simp] theorem State.answer_flags (s : State) (r : Response) : (s.answer r).flags = s.flags := rfl
@[simp] theorem State.answer_inBuf (s : State) (r : Response) : (s.answer r).inBuf = s.inBuf := rfl
@[simp] theorem State.answer_outTag (s : State) (r : Response) :
    (s.answer r).outTag = s.outTag := rfl
@[simp] theorem State.answer_outLen (s : State) (r : Response) :
    (s.answer r).outLen = s.outLen := rfl
@[simp] theorem State.answer_outBuf (s : State) (r : Response) :
    (s.answer r).outBuf = s.outBuf := rfl
@[simp] theorem State.answer_applied (s : State) (r : Response) :
    (s.answer r).applied = s.applied := rfl
@[simp] theorem State.answer_cumul (s : State) (r : Response) : (s.answer r).cumul = s.cumul := rfl
@[simp] theorem State.answer_reach (s : State) (r : Response) : (s.answer r).reach = s.reach := rfl
@[simp] theorem State.answer_status (s : State) (r : Response) :
    (s.answer r).status = s.status := rfl
@[simp] theorem State.answer_frameCnt (s : State) (r : Response) :
    (s.answer r).frameCnt = s.frameCnt := rfl
@[simp] theorem State.answer_rstCount (s : State) (r : Response) :
    (s.answer r).rstCount = s.rstCount := rfl
@[simp] theorem State.answer_pending (s : State) (r : Response) :
    (s.answer r).pending = s.pending := rfl
@[simp] theorem State.answer_resp (s : State) (r : Response) : (s.answer r).resp = some r := rfl

/-! ### `State.setPending` -/

@[simp] theorem State.setPending_bufBits (s : State) (p : List Input) :
    (s.setPending p).bufBits = s.bufBits := rfl
@[simp] theorem State.setPending_ctrl (s : State) (p : List Input) :
    (s.setPending p).ctrl = s.ctrl := rfl
@[simp] theorem State.setPending_bound (s : State) (p : List Input) :
    (s.setPending p).bound = s.bound := rfl
@[simp] theorem State.setPending_inTag (s : State) (p : List Input) :
    (s.setPending p).inTag = s.inTag := rfl
@[simp] theorem State.setPending_inLen (s : State) (p : List Input) :
    (s.setPending p).inLen = s.inLen := rfl
@[simp] theorem State.setPending_flags (s : State) (p : List Input) :
    (s.setPending p).flags = s.flags := rfl
@[simp] theorem State.setPending_inBuf (s : State) (p : List Input) :
    (s.setPending p).inBuf = s.inBuf := rfl
@[simp] theorem State.setPending_outTag (s : State) (p : List Input) :
    (s.setPending p).outTag = s.outTag := rfl
@[simp] theorem State.setPending_outLen (s : State) (p : List Input) :
    (s.setPending p).outLen = s.outLen := rfl
@[simp] theorem State.setPending_outBuf (s : State) (p : List Input) :
    (s.setPending p).outBuf = s.outBuf := rfl
@[simp] theorem State.setPending_applied (s : State) (p : List Input) :
    (s.setPending p).applied = s.applied := rfl
@[simp] theorem State.setPending_cumul (s : State) (p : List Input) :
    (s.setPending p).cumul = s.cumul := rfl
@[simp] theorem State.setPending_reach (s : State) (p : List Input) :
    (s.setPending p).reach = s.reach := rfl
@[simp] theorem State.setPending_status (s : State) (p : List Input) :
    (s.setPending p).status = s.status := rfl
@[simp] theorem State.setPending_frameCnt (s : State) (p : List Input) :
    (s.setPending p).frameCnt = s.frameCnt := rfl
@[simp] theorem State.setPending_rstCount (s : State) (p : List Input) :
    (s.setPending p).rstCount = s.rstCount := rfl
@[simp] theorem State.setPending_pending (s : State) (p : List Input) :
    (s.setPending p).pending = p := rfl
@[simp] theorem State.setPending_resp (s : State) (p : List Input) :
    (s.setPending p).resp = s.resp := rfl

/-! ### `clearCfgValid` -/

@[simp] theorem clearCfgValid_bufBits (s : State) : (clearCfgValid s).bufBits = s.bufBits := rfl
@[simp] theorem clearCfgValid_ctrl (s : State) : (clearCfgValid s).ctrl = s.ctrl := rfl
@[simp] theorem clearCfgValid_bound (s : State) : (clearCfgValid s).bound = s.bound := rfl
@[simp] theorem clearCfgValid_inTag (s : State) : (clearCfgValid s).inTag = s.inTag := rfl
@[simp] theorem clearCfgValid_inLen (s : State) : (clearCfgValid s).inLen = s.inLen := rfl
@[simp] theorem clearCfgValid_flags (s : State) : (clearCfgValid s).flags = s.flags := rfl
@[simp] theorem clearCfgValid_inBuf (s : State) : (clearCfgValid s).inBuf = s.inBuf := rfl
@[simp] theorem clearCfgValid_outTag (s : State) : (clearCfgValid s).outTag = s.outTag := rfl
@[simp] theorem clearCfgValid_outLen (s : State) : (clearCfgValid s).outLen = s.outLen := rfl
@[simp] theorem clearCfgValid_outBuf (s : State) : (clearCfgValid s).outBuf = s.outBuf := rfl
@[simp] theorem clearCfgValid_applied (s : State) : (clearCfgValid s).applied = s.applied := rfl
@[simp] theorem clearCfgValid_cumul (s : State) : (clearCfgValid s).cumul = s.cumul := rfl
@[simp] theorem clearCfgValid_reach (s : State) : (clearCfgValid s).reach = s.reach := rfl
@[simp] theorem clearCfgValid_status (s : State) :
    (clearCfgValid s).status = { s.status with cfgValid := false } := rfl
@[simp] theorem clearCfgValid_frameCnt (s : State) : (clearCfgValid s).frameCnt = s.frameCnt := rfl
@[simp] theorem clearCfgValid_rstCount (s : State) : (clearCfgValid s).rstCount = s.rstCount := rfl
@[simp] theorem clearCfgValid_pending (s : State) : (clearCfgValid s).pending = s.pending := rfl
@[simp] theorem clearCfgValid_resp (s : State) : (clearCfgValid s).resp = s.resp := rfl

/-! ### `raiseFatal` -/

@[simp] theorem raiseFatal_bufBits (s : State) (e : ErrCode) :
    (raiseFatal e s).bufBits = s.bufBits := rfl
@[simp] theorem raiseFatal_ctrl (s : State) (e : ErrCode) : (raiseFatal e s).ctrl = s.ctrl := rfl
@[simp] theorem raiseFatal_bound (s : State) (e : ErrCode) : (raiseFatal e s).bound = s.bound := rfl
@[simp] theorem raiseFatal_inTag (s : State) (e : ErrCode) : (raiseFatal e s).inTag = s.inTag := rfl
@[simp] theorem raiseFatal_inLen (s : State) (e : ErrCode) : (raiseFatal e s).inLen = s.inLen := rfl
@[simp] theorem raiseFatal_flags (s : State) (e : ErrCode) : (raiseFatal e s).flags = s.flags := rfl
@[simp] theorem raiseFatal_inBuf (s : State) (e : ErrCode) : (raiseFatal e s).inBuf = s.inBuf := rfl
@[simp] theorem raiseFatal_outTag (s : State) (e : ErrCode) :
    (raiseFatal e s).outTag = s.outTag := rfl
@[simp] theorem raiseFatal_outLen (s : State) (e : ErrCode) :
    (raiseFatal e s).outLen = s.outLen := rfl
@[simp] theorem raiseFatal_outBuf (s : State) (e : ErrCode) :
    (raiseFatal e s).outBuf = s.outBuf := rfl
@[simp] theorem raiseFatal_applied (s : State) (e : ErrCode) :
    (raiseFatal e s).applied = s.applied := rfl
@[simp] theorem raiseFatal_cumul (s : State) (e : ErrCode) : (raiseFatal e s).cumul = s.cumul := rfl
@[simp] theorem raiseFatal_reach (s : State) (e : ErrCode) : (raiseFatal e s).reach = s.reach := rfl
@[simp] theorem raiseFatal_status (s : State) (e : ErrCode) :
    (raiseFatal e s).status = { s.status with err := e, fatal := true, done := false } := rfl
@[simp] theorem raiseFatal_frameCnt (s : State) (e : ErrCode) :
    (raiseFatal e s).frameCnt = s.frameCnt := rfl
@[simp] theorem raiseFatal_rstCount (s : State) (e : ErrCode) :
    (raiseFatal e s).rstCount = s.rstCount := rfl
@[simp] theorem raiseFatal_pending (s : State) (e : ErrCode) :
    (raiseFatal e s).pending = s.pending := rfl
@[simp] theorem raiseFatal_resp (s : State) (e : ErrCode) : (raiseFatal e s).resp = s.resp := rfl

/-! ### `raiseReject` -/

@[simp] theorem raiseReject_bufBits (s : State) (e : ErrCode) :
    (raiseReject e s).bufBits = s.bufBits := rfl
@[simp] theorem raiseReject_ctrl (s : State) (e : ErrCode) : (raiseReject e s).ctrl = s.ctrl := rfl
@[simp] theorem raiseReject_bound (s : State) (e : ErrCode) :
    (raiseReject e s).bound = s.bound := rfl
@[simp] theorem raiseReject_inTag (s : State) (e : ErrCode) :
    (raiseReject e s).inTag = s.inTag := rfl
@[simp] theorem raiseReject_inLen (s : State) (e : ErrCode) :
    (raiseReject e s).inLen = s.inLen := rfl
@[simp] theorem raiseReject_flags (s : State) (e : ErrCode) :
    (raiseReject e s).flags = s.flags := rfl
@[simp] theorem raiseReject_inBuf (s : State) (e : ErrCode) :
    (raiseReject e s).inBuf = s.inBuf := rfl
@[simp] theorem raiseReject_outTag (s : State) (e : ErrCode) :
    (raiseReject e s).outTag = s.outTag := rfl
@[simp] theorem raiseReject_outLen (s : State) (e : ErrCode) :
    (raiseReject e s).outLen = s.outLen := rfl
@[simp] theorem raiseReject_outBuf (s : State) (e : ErrCode) :
    (raiseReject e s).outBuf = s.outBuf := rfl
@[simp] theorem raiseReject_applied (s : State) (e : ErrCode) :
    (raiseReject e s).applied = s.applied := rfl
@[simp] theorem raiseReject_cumul (s : State) (e : ErrCode) :
    (raiseReject e s).cumul = s.cumul := rfl
@[simp] theorem raiseReject_reach (s : State) (e : ErrCode) :
    (raiseReject e s).reach = s.reach := rfl
@[simp] theorem raiseReject_status (s : State) (e : ErrCode) :
    (raiseReject e s).status = { s.status with err := e, done := false } := rfl
@[simp] theorem raiseReject_frameCnt (s : State) (e : ErrCode) :
    (raiseReject e s).frameCnt = s.frameCnt := rfl
@[simp] theorem raiseReject_rstCount (s : State) (e : ErrCode) :
    (raiseReject e s).rstCount = s.rstCount := rfl
@[simp] theorem raiseReject_pending (s : State) (e : ErrCode) :
    (raiseReject e s).pending = s.pending := rfl
@[simp] theorem raiseReject_resp (s : State) (e : ErrCode) : (raiseReject e s).resp = s.resp := rfl

/-! ### `resetRegs` -/

@[simp] theorem resetRegs_bufBits (s : State) : (resetRegs s).bufBits = s.bufBits := rfl
@[simp] theorem resetRegs_ctrl (s : State) : (resetRegs s).ctrl = Ctrl.reset := rfl
@[simp] theorem resetRegs_bound (s : State) : (resetRegs s).bound = boundReset := rfl
@[simp] theorem resetRegs_inTag (s : State) : (resetRegs s).inTag = 0 := rfl
@[simp] theorem resetRegs_inLen (s : State) : (resetRegs s).inLen = 0 := rfl
@[simp] theorem resetRegs_flags (s : State) : (resetRegs s).flags = 0 := rfl
@[simp] theorem resetRegs_inBuf (s : State) : (resetRegs s).inBuf = s.inBuf := rfl
@[simp] theorem resetRegs_outTag (s : State) : (resetRegs s).outTag = 0 := rfl
@[simp] theorem resetRegs_outLen (s : State) : (resetRegs s).outLen = 0 := rfl
@[simp] theorem resetRegs_outBuf (s : State) : (resetRegs s).outBuf = [] := rfl
@[simp] theorem resetRegs_applied (s : State) : (resetRegs s).applied = 0 := rfl
@[simp] theorem resetRegs_cumul (s : State) : (resetRegs s).cumul = 0 := rfl
@[simp] theorem resetRegs_reach (s : State) : (resetRegs s).reach = 0 := rfl
@[simp] theorem resetRegs_status (s : State) : (resetRegs s).status = Status.reset := rfl
@[simp] theorem resetRegs_frameCnt (s : State) : (resetRegs s).frameCnt = 0 := rfl
@[simp] theorem resetRegs_rstCount (s : State) : (resetRegs s).rstCount = s.rstCount := rfl
@[simp] theorem resetRegs_pending (s : State) : (resetRegs s).pending = s.pending := rfl
@[simp] theorem resetRegs_resp (s : State) : (resetRegs s).resp = s.resp := rfl

/-! ### `hardReset` -/

@[simp] theorem hardReset_bufBits (s : State) : (hardReset s).bufBits = s.bufBits := rfl
@[simp] theorem hardReset_ctrl (s : State) : (hardReset s).ctrl = Ctrl.reset := rfl
@[simp] theorem hardReset_bound (s : State) : (hardReset s).bound = boundReset := rfl
@[simp] theorem hardReset_inTag (s : State) : (hardReset s).inTag = 0 := rfl
@[simp] theorem hardReset_inLen (s : State) : (hardReset s).inLen = 0 := rfl
@[simp] theorem hardReset_flags (s : State) : (hardReset s).flags = 0 := rfl
@[simp] theorem hardReset_inBuf (s : State) : (hardReset s).inBuf = [] := rfl
@[simp] theorem hardReset_outTag (s : State) : (hardReset s).outTag = 0 := rfl
@[simp] theorem hardReset_outLen (s : State) : (hardReset s).outLen = 0 := rfl
@[simp] theorem hardReset_outBuf (s : State) : (hardReset s).outBuf = [] := rfl
@[simp] theorem hardReset_applied (s : State) : (hardReset s).applied = 0 := rfl
@[simp] theorem hardReset_cumul (s : State) : (hardReset s).cumul = 0 := rfl
@[simp] theorem hardReset_reach (s : State) : (hardReset s).reach = 0 := rfl
@[simp] theorem hardReset_status (s : State) : (hardReset s).status = Status.reset := rfl
@[simp] theorem hardReset_frameCnt (s : State) : (hardReset s).frameCnt = 0 := rfl
@[simp] theorem hardReset_rstCount (s : State) : (hardReset s).rstCount = s.rstCount + 1 := rfl
@[simp] theorem hardReset_pending (s : State) : (hardReset s).pending = s.pending := rfl
@[simp] theorem hardReset_resp (s : State) : (hardReset s).resp = none := rfl

/-! ### `State.resetWith` -/

@[simp] theorem State.resetWith_bufBits (b : Half) : (State.resetWith b).bufBits = b := rfl
@[simp] theorem State.resetWith_ctrl (b : Half) : (State.resetWith b).ctrl = Ctrl.reset := rfl
@[simp] theorem State.resetWith_bound (b : Half) : (State.resetWith b).bound = boundReset := rfl
@[simp] theorem State.resetWith_inTag (b : Half) : (State.resetWith b).inTag = 0 := rfl
@[simp] theorem State.resetWith_inLen (b : Half) : (State.resetWith b).inLen = 0 := rfl
@[simp] theorem State.resetWith_flags (b : Half) : (State.resetWith b).flags = 0 := rfl
@[simp] theorem State.resetWith_inBuf (b : Half) : (State.resetWith b).inBuf = [] := rfl
@[simp] theorem State.resetWith_outTag (b : Half) : (State.resetWith b).outTag = 0 := rfl
@[simp] theorem State.resetWith_outLen (b : Half) : (State.resetWith b).outLen = 0 := rfl
@[simp] theorem State.resetWith_outBuf (b : Half) : (State.resetWith b).outBuf = [] := rfl
@[simp] theorem State.resetWith_applied (b : Half) : (State.resetWith b).applied = 0 := rfl
@[simp] theorem State.resetWith_cumul (b : Half) : (State.resetWith b).cumul = 0 := rfl
@[simp] theorem State.resetWith_reach (b : Half) : (State.resetWith b).reach = 0 := rfl
@[simp] theorem State.resetWith_status (b : Half) : (State.resetWith b).status = Status.reset := rfl
@[simp] theorem State.resetWith_frameCnt (b : Half) : (State.resetWith b).frameCnt = 0 := rfl
@[simp] theorem State.resetWith_rstCount (b : Half) : (State.resetWith b).rstCount = 0 := rfl
@[simp] theorem State.resetWith_pending (b : Half) : (State.resetWith b).pending = [] := rfl
@[simp] theorem State.resetWith_resp (b : Half) : (State.resetWith b).resp = none := rfl

/-! ### `writeBack` -/

@[simp] theorem writeBack_bufBits (s : State) : (writeBack s).bufBits = s.bufBits := rfl
@[simp] theorem writeBack_ctrl (s : State) : (writeBack s).ctrl = s.ctrl := rfl
@[simp] theorem writeBack_bound (s : State) : (writeBack s).bound = s.bound := rfl
@[simp] theorem writeBack_inTag (s : State) : (writeBack s).inTag = s.inTag := rfl
@[simp] theorem writeBack_inLen (s : State) : (writeBack s).inLen = s.inLen := rfl
@[simp] theorem writeBack_flags (s : State) : (writeBack s).flags = s.flags := rfl
@[simp] theorem writeBack_inBuf (s : State) : (writeBack s).inBuf = s.inBuf := rfl
@[simp] theorem writeBack_outTag (s : State) :
    (writeBack s).outTag = encodeTag (tagOut s) s.ctrl.ofmt := rfl
@[simp] theorem writeBack_outLen (s : State) : (writeBack s).outLen = outputLen s := rfl
@[simp] theorem writeBack_outBuf (s : State) : (writeBack s).outBuf = outputBuf s := rfl
@[simp] theorem writeBack_applied (s : State) :
    (writeBack s).applied = packLanes (newlyApplied s) (layers s) := rfl
@[simp] theorem writeBack_cumul (s : State) :
    (writeBack s).cumul = packLanes (cumulative s) (layers s) := rfl
@[simp] theorem writeBack_reach (s : State) :
    (writeBack s).reach = packLanes (reached s) (layers s) := rfl
@[simp] theorem writeBack_status (s : State) :
    (writeBack s).status =
      statusProcessed s.status (sanitized s) (decide (tag0 s = .sync ∧ frameLen s = 0)) (nodataOut s) (firstTrunc s) := rfl
@[simp] theorem writeBack_frameCnt (s : State) : (writeBack s).frameCnt = s.frameCnt + 1 := rfl
@[simp] theorem writeBack_rstCount (s : State) : (writeBack s).rstCount = s.rstCount := rfl
@[simp] theorem writeBack_pending (s : State) : (writeBack s).pending = s.pending := rfl
@[simp] theorem writeBack_resp (s : State) : (writeBack s).resp = s.resp := rfl

end Sys2Proof.Machine
end

