-- ==== Sys2Proof/Laws/Buffers.lean ====
section
/-! SUPPORT. The payload buffers: what a read gives after a write, and that every operation keeps the one form of the buffers. -/

namespace Sys2Proof.Machine

@[simp] theorem bufGet_nil (j : Nat) : bufGet [] j = none := rfl

@[simp] theorem bufGet_cons (k : Nat) (v : Elem) (rest : Buf) (j : Nat) :
    bufGet ((k, v) :: rest) j = if k = j then some v else bufGet rest j := rfl

/-- A read after a write gives the value written, and every other element reads as before. -/
theorem bufGet_bufPut (b : Buf) (j k : Nat) (v : Elem) :
    bufGet (bufPut b j v) k = if j = k then some v else bufGet b k := by
  induction b with
  | nil => rfl
  | cons e rest ih =>
    obtain ⟨n, w⟩ := e
    rw [bufPut]
    split
    · rfl
    · split
      · next h => subst h; simp only [bufGet_cons]; split <;> rfl
      · next _ h =>
        simp only [bufGet_cons, ih]
        split
        · next hk => rw [if_neg]; omega
        · rfl

theorem mem_bufPut {b : Buf} {j : Nat} {v : Elem} {e : Nat × Elem} (h : e ∈ bufPut b j v) :
    e = (j, v) ∨ e ∈ b := by
  induction b with
  | nil => exact .inl (by simpa [bufPut] using h)
  | cons x rest ih =>
    obtain ⟨n, w⟩ := x
    rw [bufPut] at h
    split at h
    · simpa using h
    · split at h
      · rcases List.mem_cons.1 h with h | h
        · exact .inl h
        · exact .inr (List.mem_cons_of_mem _ h)
      · rcases List.mem_cons.1 h with h | h
        · exact .inr (by simp [h])
        · exact (ih h).imp id (List.mem_cons_of_mem _)

/-- Writing an element below the capacity keeps the indices rising and below it. -/
theorem bufRising_bufPut {n : Nat} {b : Buf} {j : Nat} {v : Elem} (hj : j < n)
    (h : bufRising n b) : bufRising n (bufPut b j v) := by
  refine ⟨?_, fun e he => (mem_bufPut he).elim (fun h' => h' ▸ hj) (h.2 e)⟩
  obtain ⟨h, -⟩ := h
  induction b with
  | nil => simp [bufPut]
  | cons x rest ih =>
    obtain ⟨k, w⟩ := x
    obtain ⟨hk, hrest⟩ := List.pairwise_cons.1 h
    rw [bufPut]
    split
    · next hlt =>
      refine List.pairwise_cons.2 ⟨fun e he => ?_, h⟩
      rcases List.mem_cons.1 he with rfl | he
      · exact hlt
      · exact Nat.lt_trans hlt (hk e he)
    · split
      · next _ heq => subst heq; exact List.pairwise_cons.2 ⟨hk, hrest⟩
      · next hge hne =>
        refine List.pairwise_cons.2 ⟨fun e he => ?_, ih hrest⟩
        rcases mem_bufPut he with rfl | he
        · simp only at hge ⊢; omega
        · exact hk e he

theorem mem_bufOf {n : Nat} {f : Nat → Elem} {e : Nat × Elem} :
    e ∈ bufOf n f ↔ e.1 < n ∧ e.2 = f e.1 ∧ e.2 ≠ 0 := by
  obtain ⟨j, v⟩ := e
  simp only [bufOf, List.mem_filterMap, List.mem_range]
  constructor
  · rintro ⟨k, hk, h⟩
    split at h
    · cases h
    · next hne => cases h; exact ⟨hk, rfl, hne⟩
  · rintro ⟨hj, rfl, hne⟩
    exact ⟨j, hj, if_neg hne⟩

theorem bufRising_bufOf (n : Nat) (f : Nat → Elem) : bufRising n (bufOf n f) := by
  refine ⟨?_, fun e he => (mem_bufOf.1 he).1⟩
  refine List.Pairwise.filterMap _ ?_ List.pairwise_lt_range
  intro a c hac x hx y hy
  split at hx <;> split at hy <;> simp_all only [Option.some.injEq, reduceCtorEq]
  subst hx; subst hy; exact hac

theorem bufGet_of_mem {n : Nat} {b : Buf} (h : bufRising n b) {e : Nat × Elem} (he : e ∈ b) :
    bufGet b e.1 = some e.2 := by
  obtain ⟨h, -⟩ := h
  induction b with
  | nil => cases he
  | cons x rest ih =>
    obtain ⟨hk, hrest⟩ := List.pairwise_cons.1 h
    obtain ⟨k, w⟩ := x
    rcases List.mem_cons.1 he with rfl | he
    · simp
    · have := hk e he
      simp only at this
      rw [bufGet_cons, if_neg (by omega), ih he hrest]

theorem mem_of_bufGet {b : Buf} {j : Nat} {v : Elem} (h : bufGet b j = some v) : (j, v) ∈ b := by
  induction b with
  | nil => cases h
  | cons x rest ih =>
    obtain ⟨k, w⟩ := x
    rw [bufGet_cons] at h
    split at h
    · next hk => cases h; simp [hk]
    · exact List.mem_cons_of_mem _ (ih h)

/-- What a read of a buffer made by `bufOf` gives. -/
theorem bufGet_bufOf (n : Nat) (f : Nat → Elem) (j : Nat) :
    bufGet (bufOf n f) j = if j < n ∧ f j ≠ 0 then some (f j) else none := by
  split
  · next h => exact bufGet_of_mem (e := (j, f j)) (bufRising_bufOf n f) (mem_bufOf.2 ⟨h.1, rfl, h.2⟩)
  · next h =>
    cases hg : bufGet (bufOf n f) j with
    | none => rfl
    | some v =>
      obtain ⟨h1, h2, h3⟩ := mem_bufOf.1 (mem_of_bufGet hg)
      simp only at h1 h2 h3
      exact absurd ⟨h1, h2 ▸ h3⟩ h

theorem getD_bufGet_bufOf (n : Nat) (f : Nat → Elem) (j : Nat) :
    (bufGet (bufOf n f) j).getD 0 = if j < n then f j else 0 := by
  rw [bufGet_bufOf]
  by_cases hj : j < n
  · by_cases hf : f j = 0
    · rw [if_neg fun h => h.2 hf, if_pos hj, hf]; rfl
    · rw [if_pos ⟨hj, hf⟩, if_pos hj]; rfl
  · rw [if_neg fun h => hj h.1, if_neg hj]; rfl

theorem bufRising_nil (n : Nat) : bufRising n [] := ⟨.nil, by simp⟩

/-! ### The buffers as fields of the state -/

/-- A read of `IN_BUF` after a write to it. -/
theorem inElem_setInElem (s : State) (j : Nat) (v : Elem) (k : Nat) :
    inElem (s.setInElem j v) k = if j = k then v else inElem s k := by
  simp only [inElem, State.setInElem_inBuf, State.setInElem_rstCount, bufGet_bufPut]
  split <;> rfl

/-- What `OUT_BUF` reads as after a write-back, whatever the state before. -/
theorem outElem_writeBack (s : State) (j : Nat) :
    outElem (writeBack s) j = if j < s.bufBits.toNat then payloadOut s j else 0 := by
  simp only [outElem, writeBack_outBuf, outputBuf, getD_bufGet_bufOf]
  by_cases h1 : j < (outputLen s).toNat <;> by_cases h2 : j < s.bufBits.toNat <;>
    simp [payloadOut, h1, h2]

theorem memory_wf_reset (b : Half) : Memory.wf (State.resetWith b) :=
  ⟨bufRising_nil _, bufRising_nil _, by simp⟩

theorem memory_wf_setInElem {s : State} {j : Nat} {v : Elem} (hj : j < s.bufBits.toNat)
    (h : Memory.wf s) : Memory.wf (s.setInElem j v) :=
  ⟨bufRising_bufPut hj h.1, h.2⟩

theorem bufRising_mono {m n : Nat} {b : Buf} (hmn : m ≤ n) (h : bufRising m b) :
    bufRising n b :=
  ⟨h.1, fun e he => Nat.lt_of_lt_of_le (h.2 e he) hmn⟩

theorem memory_wf_writeBack {s : State} (h : Memory.wf s) : Memory.wf (writeBack s) :=
  ⟨h.1, bufRising_mono (Nat.min_le_right _ _) (bufRising_bufOf _ _),
    fun _ he => (mem_bufOf.1 he).2.2⟩

theorem memory_wf_resetRegs {s : State} (h : Memory.wf s) : Memory.wf (resetRegs s) :=
  ⟨h.1, bufRising_nil _, by simp⟩

theorem memory_wf_hardReset (s : State) : Memory.wf (hardReset s) :=
  ⟨bufRising_nil _, bufRising_nil _, by simp⟩

/-- An update that leaves both buffers and the capacity alone keeps their form. -/
theorem memory_wf_of_same {s t : State} (hb : t.bufBits = s.bufBits) (hi : t.inBuf = s.inBuf)
    (ho : t.outBuf = s.outBuf) (h : Memory.wf s) : Memory.wf t := by
  unfold Memory.wf; rw [hb, hi, ho]; exact h

end Sys2Proof.Machine
end

