-- ==== Sys2Proof/Laws/Operands.lean ====
section
/-! SUPPORT. The operand functions in arithmetic and logic: bounded search, lane vectors, tags, and which fields they read. -/

namespace Sys2Proof.Machine

@[simp] theorem anyBelow_iff {n : Nat} {p : Nat → Bool} :
    anyBelow n p = true ↔ ∃ i, i < n ∧ p i = true := by
  simp [anyBelow]

@[simp] theorem allBelow_iff {n : Nat} {p : Nat → Bool} :
    allBelow n p = true ↔ ∀ i, i < n → p i = true := by
  simp [allBelow]

theorem leastBelow_eq_some {n : Nat} {p : Nat → Bool} {i : Nat} :
    leastBelow n p = some i ↔ i < n ∧ p i = true ∧ ∀ m, m < i → p m = false := by
  rw [leastBelow, List.find?_range_eq_some]
  simp [and_left_comm]

theorem leastBelow_eq_none {n : Nat} {p : Nat → Bool} :
    leastBelow n p = none ↔ ∀ i, i < n → p i = false := by
  simp [leastBelow]

theorem greatestBelow_eq_none {n : Nat} {p : Nat → Bool} :
    greatestBelow n p = none ↔ ∀ i, i < n → p i = false := by
  simp [greatestBelow]

theorem greatestBelow_eq_some {n : Nat} {p : Nat → Bool} {i : Nat} :
    greatestBelow n p = some i ↔ i < n ∧ p i = true ∧ ∀ m, i < m → m < n → p m = false := by
  induction n with
  | zero => simp [greatestBelow]
  | succ n ih =>
    have hs : greatestBelow (n + 1) p = if p n = true then some n else greatestBelow n p := by
      simp only [greatestBelow, List.range_succ, List.reverse_append, List.reverse_cons,
        List.reverse_nil, List.nil_append, List.singleton_append, List.find?_cons]
      cases p n <;> rfl
    rw [hs]
    by_cases hp : p n = true
    · rw [if_pos hp, Option.some.injEq]
      constructor
      · rintro rfl; exact ⟨Nat.lt_succ_self _, hp, fun m h1 h2 => by omega⟩
      · rintro ⟨h1, -, h3⟩
        by_contra hne
        have := h3 n (by omega) (Nat.lt_succ_self n)
        simp [hp] at this
    · rw [if_neg hp, ih]
      constructor
      · rintro ⟨h1, h2, h3⟩
        refine ⟨by omega, h2, fun m hm hmn => ?_⟩
        rcases Nat.lt_succ_iff_lt_or_eq.1 hmn with h | rfl
        · exact h3 m hm h
        · simpa using hp
      · rintro ⟨h1, h2, h3⟩
        refine ⟨?_, h2, fun m hm hmn => h3 m hm (by omega)⟩
        rcases Nat.lt_succ_iff_lt_or_eq.1 h1 with h | rfl
        · exact h
        · exact absurd h2 hp

/-- Lane `i` of a packed vector of at most 32 lanes. -/
theorem getLsbD_packLanes (p : Nat → Bool) {n : Nat} (hn : n ≤ 32) (i : Nat) :
    (packLanes p n).getLsbD i = (decide (i < n) && p i) := by
  induction n with
  | zero => simp [packLanes]
  | succ n ih =>
    rw [packLanes, BitVec.getLsbD_or, ih (by omega)]
    by_cases hi : i = n
    · subst hi
      cases h : p i <;> simp [show i < 32 by omega]
    · have hlt : (i < n + 1) ↔ (i < n) := by omega
      cases h : p n <;> simp [BitVec.getLsbD_twoPow, hlt, Ne.symm hi]

theorem layers_pos (s : State) : 0 < layers s := Nat.succ_pos _

theorem layers_le (s : State) : layers s ≤ 32 := by
  have := s.ctrl.nm1.isLt
  unfold layers
  omega

@[simp] theorem lo_zero (s : State) : lo s 0 = 0 := rfl

@[simp] theorem lo_succ (s : State) (i : Nat) : lo s (i + 1) = up s i := rfl

/-- `decode_tag` finds exactly the words `encode_tag` makes. -/
theorem decodeTag_eq_some {w : Half} {f : Format} {t : Tag} :
    decodeTag w f = some t ↔ w = encodeTag t f := by
  cases f <;> cases t <;> simp only [decodeTag, encodeTag] <;> split <;> simp_all

theorem modeOfBit_modeBit (m : Mode) : modeOfBit (modeBit m) = m := by cases m <;> rfl

theorem formatOfBit_formatBit (f : Format) : formatOfBit (formatBit f) = f := by cases f <;> rfl

/-- `BOUND[i]` after a write to it, and every other boundary. -/
theorem up_setBound (s : State) (i : Fin 32) (v : Half) (k : Nat) :
    up (s.setBound i v) k = if i.val = k then v else up s k := by
  simp only [up, State.setBound_bound, Vector.getElem?_set]
  split <;> simp_all

end Sys2Proof.Machine
end

