-- ==== Sys2Proof/Laws/Engine.lean ====
section
/-! SUPPORT. What each stage of PROCESS says, in logic; what each command can answer. -/

namespace Sys2Proof.Machine

/-! ### Stages -/

theorem reached_iff {s : State} {i : Nat} :
    reached s i = true ↔ i < layers s ∧ up s i ≤ frameLen s := by
  simp [reached]

theorem erased_iff {s : State} {i : Nat} :
    erased s i = true ↔ reached s i = true ∧ flag s i = true := by
  simp [erased]

theorem intact_iff {s : State} {i : Nat} :
    intact s i = true ↔ reached s i = true ∧ flag s i = false := by
  simp [intact]

theorem reached_lt {s : State} {i : Nat} (h : reached s i = true) : i < layers s :=
  (reached_iff.1 h).1

theorem erased_lt {s : State} {i : Nat} (h : erased s i = true) : i < layers s :=
  reached_lt (erased_iff.1 h).1

theorem lenLegal_iff {s : State} : lenLegal s = true ↔ LengthLegal s := by
  simp [lenLegal, LengthLegal]

theorem layerBlank_iff {s : State} {i : Nat} :
    layerBlank s i = true ↔
      ∀ j, (lo s i).toNat ≤ j → j < (up s i).toNat → overlay s j = 0 := by
  simp only [layerBlank, allBelow_iff, Bool.or_eq_true, decide_eq_true_eq, beq_iff_eq]
  constructor
  · intro h j h1 h2
    exact (h j h2).resolve_left (by omega)
  · intro h j hj
    rcases Nat.lt_or_ge j (lo s i).toNat with h1 | h1
    · exact .inl h1
    · exact .inr (h j h1 hj)

theorem aboveTrunc_iff {s : State} {i : Nat} :
    aboveTrunc s i = true ↔ ∃ t, firstTrunc s = some t ∧ t < i := by
  unfold aboveTrunc
  cases firstTrunc s <;> simp

theorem newlyApplied_iff {s : State} {i : Nat} :
    newlyApplied s i = true ↔
      erased s i = true ∨ (∃ t, firstTrunc s = some t ∧ t < i) ∧ intact s i = true := by
  simp [newlyApplied, aboveTrunc_iff]

theorem newlyApplied_reached {s : State} {i : Nat} (h : newlyApplied s i = true) :
    reached s i = true :=
  (newlyApplied_iff.1 h).elim (fun h => (erased_iff.1 h).1) (fun h => (intact_iff.1 h.2).1)

theorem tagOut_fer_iff {s : State} (h : outputLen s ≠ 0) :
    tagOut s = .fer ↔ ∃ j, j < (outputLen s).toNat ∧ overlay s j = 0 := by
  unfold tagOut
  rw [if_neg h]
  simp only [anyBelow_iff, beq_iff_eq]
  split <;> simp_all

theorem tagOut_of_empty {s : State} (h : outputLen s = 0) : tagOut s = tag1 s := by
  unfold tagOut; rw [if_pos h]

theorem tag1_eq (s : State) :
    (tag1 s = .fer ∧ ∃ i, erased s i = true) ∨
      (tag1 s = tag0 s ∧ ∀ i, erased s i = false) := by
  unfold tag1
  split
  · next h =>
    obtain ⟨i, -, hi⟩ := anyBelow_iff.1 h
    exact .inl ⟨rfl, i, hi⟩
  · next h =>
    refine .inr ⟨rfl, fun i => ?_⟩
    by_contra hi
    have hi : erased s i = true := by simpa using hi
    exact h (anyBelow_iff.2 ⟨i, erased_lt hi, hi⟩)

theorem nodataOut_iff {s : State} :
    nodataOut s = true ↔ tagOut s = .sync ∧ outputLen s = 0 := by
  simp [nodataOut]

theorem cumulative_iff {s : State} {i : Nat} :
    cumulative s i = true ↔ ¬(tagOut s = .sync ∧ outputLen s = 0) ∧
      (outputLen s < up s i ∨ (tagOut s = .fer ∧ up s i ≤ outputLen s) ∧
        layerBlank s i = true) := by
  rw [← nodataOut_iff]
  simp [cumulative]

/-! ### Truncation -/

theorem truncLayered_eq_some {s : State} {t : Nat} :
    truncLayered s = some t ↔ erased s t = true ∧ ∀ m, m < t → erased s m = false := by
  rw [truncLayered, leastBelow_eq_some]
  exact ⟨fun h => h.2, fun h => ⟨erased_lt h.1, h⟩⟩

theorem truncLayered_eq_none {s : State} :
    truncLayered s = none ↔ ∀ i, erased s i = false := by
  rw [truncLayered, leastBelow_eq_none]
  refine ⟨fun h i => ?_, fun h i _ => h i⟩
  by_cases hi : i < layers s
  · exact h i hi
  · by_contra hc
    exact hi (erased_lt (by simpa using hc))

theorem topReached_eq_some {s : State} {k : Nat} :
    topReached s = some k ↔ reached s k = true ∧ ∀ m, k < m → reached s m = false := by
  rw [topReached, greatestBelow_eq_some]
  constructor
  · rintro ⟨h1, h2, h3⟩
    refine ⟨h2, fun m hm => ?_⟩
    by_cases hl : m < layers s
    · exact h3 m hm hl
    · by_contra hc
      exact hl (reached_lt (by simpa using hc))
  · rintro ⟨h1, h2⟩
    exact ⟨reached_lt h1, h1, fun m hm _ => h2 m hm⟩

theorem topReached_eq_none {s : State} : topReached s = none ↔ ∀ i, reached s i = false := by
  rw [topReached, greatestBelow_eq_none]
  refine ⟨fun h i => ?_, fun h i _ => h i⟩
  by_cases hi : i < layers s
  · exact h i hi
  · by_contra hc
    exact hi (reached_lt (by simpa using hc))

/-- `t` in INDIVIDUAL mode starts the run of erased layers that ends at the highest reached one. -/
theorem truncIndividual_eq_some {s : State} {t : Nat} :
    truncIndividual s = some t ↔ frameLen s ≠ 0 ∧ ∃ k, topReached s = some k ∧ t ≤ k ∧
      (∀ m, t ≤ m → m ≤ k → erased s m = true) ∧ ∀ i, i < t → ∃ m, i ≤ m ∧ m < t ∧
        erased s m = false := by
  unfold truncIndividual
  cases htop : topReached s with
  | none => simp
  | some k =>
    have hrun : ∀ i, (allBelow (k + 1) fun m => decide (m < i) || erased s m) = true ↔
        ∀ m, i ≤ m → m ≤ k → erased s m = true := by
      intro i
      simp only [allBelow_iff, Bool.or_eq_true, decide_eq_true_eq]
      constructor
      · intro h m h1 h2
        exact (h m (by omega)).resolve_left (by omega)
      · intro h m hm
        rcases Nat.lt_or_ge m i with h1 | h1
        · exact .inl h1
        · exact .inr (h m h1 (by omega))
    have hleast : ∀ t, (leastBelow (k + 1) fun i =>
        allBelow (k + 1) fun m => decide (m < i) || erased s m) = some t ↔ t ≤ k ∧
        (∀ m, t ≤ m → m ≤ k → erased s m = true) ∧ ∀ i, i < t → ∃ m, i ≤ m ∧ m < t ∧
        erased s m = false := by
      intro t
      rw [leastBelow_eq_some, hrun, Nat.lt_succ_iff]
      refine and_congr_right fun htk => and_congr_right fun hall => ?_
      refine forall_congr' fun i => forall_congr' fun hi => ?_
      rw [← Bool.not_eq_true, hrun]
      constructor
      · intro h
        by_contra hc
        refine h fun m h1 h2 => ?_
        by_contra he
        rcases Nat.lt_or_ge m t with h3 | h3
        · exact hc ⟨m, h1, h3, by simpa using he⟩
        · exact he (hall m h3 h2)
      · rintro ⟨m, h1, h2, h3⟩ h
        rw [h m h1 (by omega)] at h3
        cases h3
    simp only [Option.some.injEq]
    split
    · next hc =>
      rw [hleast]
      constructor
      · intro h; exact ⟨hc.1, k, rfl, h⟩
      · rintro ⟨-, k', rfl, h⟩; exact h
    · next hc =>
      constructor
      · intro h; cases h
      · rintro ⟨h0, k', rfl, htk, hall, -⟩
        exact absurd ⟨h0, hall k htk le_rfl⟩ hc

/-- In both modes the first truncated layer is erased. -/
theorem firstTrunc_erased {s : State} {t : Nat} (h : firstTrunc s = some t) :
    erased s t = true := by
  unfold firstTrunc at h
  cases hm : s.ctrl.mode <;> rw [hm] at h
  · exact (truncLayered_eq_some.1 h).1
  · obtain ⟨-, k, -, htk, hall, -⟩ := truncIndividual_eq_some.1 h
    exact hall t le_rfl htk

theorem outputLen_some {s : State} {t : Nat} (h : firstTrunc s = some t) :
    outputLen s = lo s t := by
  unfold outputLen; rw [h]

theorem outputLen_none {s : State} (h : firstTrunc s = none) : outputLen s = frameLen s := by
  unfold outputLen; rw [h]

/-! ### A legal topology -/

theorem up_strict {s : State} (h : TopologyLegal s) {i j : Nat} (hij : i < j)
    (hj : j < layers s) : up s i < up s j := by
  induction j with
  | zero => omega
  | succ j ih =>
    have hstep : up s j < up s (j + 1) := h.2.1 (j + 1) hj (by omega)
    rcases Nat.lt_succ_iff_lt_or_eq.1 hij with h1 | rfl
    · exact BitVec.lt_trans (ih h1 (by omega)) hstep
    · exact hstep

theorem up_mono {s : State} (h : TopologyLegal s) {i j : Nat} (hij : i ≤ j)
    (hj : j < layers s) : up s i ≤ up s j := by
  rcases Nat.lt_or_eq_of_le hij with h1 | rfl
  · exact BitVec.le_of_lt (up_strict h h1 hj)
  · exact BitVec.le_refl _

theorem up_pos {s : State} (h : TopologyLegal s) {i : Nat} (hi : i < layers s) :
    0 < (up s i).toNat := by
  have h0 : 0 < (up s 0).toNat := by
    have := h.1
    rw [Nat.pos_iff_ne_zero]
    exact fun hc => this (BitVec.eq_of_toNat_eq hc)
  exact Nat.lt_of_lt_of_le h0 (BitVec.le_def.1 (up_mono h (Nat.zero_le i) hi))

theorem lo_lt_up {s : State} (h : TopologyLegal s) {i : Nat} (hi : i < layers s) :
    (lo s i).toNat < (up s i).toNat := by
  cases i with
  | zero => exact up_pos h hi
  | succ i => exact BitVec.lt_def.1 (up_strict h (Nat.lt_succ_self i) hi)

theorem up_le_lo {s : State} (h : TopologyLegal s) {i j : Nat} (hij : i < j)
    (hj : j < layers s) : up s i ≤ lo s j := by
  cases j with
  | zero => omega
  | succ j => exact up_mono h (by omega) (by omega)

theorem lo_le_frameLen {s : State} (h : TopologyLegal s) {i : Nat} (hi : reached s i = true) :
    lo s i ≤ frameLen s := by
  obtain ⟨h1, h2⟩ := reached_iff.1 hi
  have := lo_lt_up h h1
  rw [BitVec.le_def] at h2 ⊢
  omega

/-- The output is never longer than the sanitized input (41_engine.md R119). -/
theorem outputLen_le {s : State} (h : TopologyLegal s) : outputLen s ≤ frameLen s := by
  cases ht : firstTrunc s with
  | none => rw [outputLen_none ht]; exact BitVec.le_refl _
  | some t =>
    rw [outputLen_some ht]
    exact lo_le_frameLen h (erased_iff.1 (firstTrunc_erased ht)).1

theorem frameLen_le_cap {s : State} (h : TopologyLegal s) (hl : LengthLegal s) :
    frameLen s ≤ s.bufBits := by
  rcases hl with h0 | ⟨i, hi, he⟩
  · rw [h0, BitVec.le_def]; simp
  · rw [he]
    exact BitVec.le_trans (up_mono h (by have := layers_pos s; omega)
      (by have := layers_pos s; omega)) h.2.2

/-- Element `j` of layer `i` is overlaid from the input exactly when the layer is intact
(41_engine.md R104). -/
theorem overlay_in_layer {s : State} (h : TopologyLegal s) {i j : Nat} (hi : i < layers s)
    (h1 : (lo s i).toNat ≤ j) (h2 : j < (up s i).toNat) :
    overlay s j = if intact s i = true then inElem s j else 0 := by
  have huniq : ∀ m, m < layers s → (lo s m).toNat ≤ j → j < (up s m).toNat → m = i := by
    intro m hm h3 h4
    rcases Nat.lt_trichotomy m i with hlt | rfl | hlt
    · have := BitVec.le_def.1 (up_le_lo h hlt hi); omega
    · rfl
    · have := BitVec.le_def.1 (up_le_lo h hlt hm); omega
  unfold overlay
  by_cases hc : intact s i = true
  · rw [if_pos hc, if_pos]
    exact anyBelow_iff.2 ⟨i, hi, by simp [hc, h1, h2]⟩
  · rw [if_neg hc, if_neg]
    intro hany
    obtain ⟨m, hm, hp⟩ := anyBelow_iff.1 hany
    simp only [Bool.and_eq_true, decide_eq_true_eq] at hp
    exact hc (huniq m hm hp.2.1 hp.2.2 ▸ hp.1)

/-- Beyond the sanitized length nothing is overlaid. -/
theorem overlay_beyond {s : State} {j : Nat} (hj : (frameLen s).toNat ≤ j) : overlay s j = 0 := by
  unfold overlay
  rw [if_neg]
  intro hany
  obtain ⟨m, hm, hp⟩ := anyBelow_iff.1 hany
  simp only [Bool.and_eq_true, decide_eq_true_eq] at hp
  have := BitVec.le_def.1 (reached_iff.1 (intact_iff.1 hp.1).1).2
  omega

/-- An element outside every intact layer is 0x0000 in the overlay. -/
theorem overlay_eq_zero {s : State} {j : Nat}
    (h : ∀ i, intact s i = true → (lo s i).toNat ≤ j → (up s i).toNat ≤ j) :
    overlay s j = 0 := by
  unfold overlay
  rw [if_neg]
  intro hany
  obtain ⟨m, hm, hp⟩ := anyBelow_iff.1 hany
  simp only [Bool.and_eq_true, decide_eq_true_eq] at hp
  have := h m hp.1 hp.2.1
  omega

/-! ### What each command answers -/

theorem exec_nop (s : State) : exec .nop s = .next s := rfl

theorem exec_softReset (s : State) : exec .softReset s = .next (resetRegs s) := rfl

theorem unlessLocked_locked {s : State} (h : s.status.fatal = true) (t : State) :
    unlessLocked s t = .next s := by
  simp [unlessLocked, h]

theorem unlessLocked_free {s : State} (h : s.status.fatal = false) (t : State) :
    unlessLocked s t = .next t := by
  simp [unlessLocked, h]

theorem exec_commit_locked {s : State} (h : s.status.fatal = true) :
    exec .commit s = .next s := unlessLocked_locked h _

theorem exec_commit_free {s : State} (h : s.status.fatal = false) :
    exec .commit s = .next (commitState s) := unlessLocked_free h _

theorem exec_process_locked {s : State} (h : s.status.fatal = true) :
    exec .process s = .next s := unlessLocked_locked h _

theorem exec_process_guard {s : State} (h : s.status.fatal = false)
    (hc : s.status.cfgValid = false) :
    exec .process s = .next (raiseReject .notConfigured s) := by
  show unlessLocked s (processState s) = _
  rw [unlessLocked_free h]; simp [processState, hc]

theorem exec_process_misaligned {s : State} (h : s.status.fatal = false)
    (hc : s.status.cfgValid = true) (hl : ¬LengthLegal s) :
    exec .process s = .next (raiseFatal .lenMisaligned s) := by
  show unlessLocked s (processState s) = _
  rw [unlessLocked_free h]; simp [processState, hc, lenLegal_iff, hl]

theorem exec_process_completes {s : State} (h : CanProcess s) :
    exec .process s = .next (writeBack s) := by
  show unlessLocked s (processState s) = _
  rw [unlessLocked_free h.1]; simp [processState, h.2.1, lenLegal_iff, h.2.2]

theorem boundOrderFails_iff {s : State} :
    boundOrderFails s = true ↔ ∃ i, i < layers s ∧ 1 ≤ i ∧ up s i ≤ up s (i - 1) := by
  simp [boundOrderFails]

/-- COMMIT finds no error exactly in a legal topology. -/
theorem topologyError_eq_none {s : State} : topologyError s = none ↔ TopologyLegal s := by
  unfold topologyError TopologyLegal
  split
  · simp_all
  · next h0 =>
    split
    · next h1 =>
      obtain ⟨i, hi, h2, h3⟩ := boundOrderFails_iff.1 h1
      simp only [reduceCtorEq, false_iff, not_and]
      intro _ hall
      exact absurd (hall i hi h2) (BitVec.not_lt.2 h3)
    · next h1 =>
      have hall : ∀ i < layers s, 1 ≤ i → up s (i - 1) < up s i := by
        intro i hi h2
        by_contra h3
        exact h1 (boundOrderFails_iff.2 ⟨i, hi, h2, BitVec.not_lt.1 h3⟩)
      split
      · next h2 =>
        simp only [reduceCtorEq, false_iff, not_and]
        intro _ _ h3
        exact absurd h2 (BitVec.not_lt.2 h3)
      · next h2 => exact ⟨fun _ => ⟨h0, hall, BitVec.not_lt.1 h2⟩, fun _ => rfl⟩

/-- The codes COMMIT can find are fatal. -/
theorem topologyError_fatal {s : State} {e : ErrCode} (h : topologyError s = some e) :
    errIsFatal e = true := by
  unfold topologyError at h
  split at h
  · cases h; rfl
  · split at h
    · cases h; rfl
    · split at h
      · cases h; rfl
      · cases h

/-- What PROCESS can answer. -/
theorem exec_process_cases {s t : State} (h : exec .process s = .next t) :
    (s.status.fatal = true ∧ t = s) ∨
    (s.status.fatal = false ∧ s.status.cfgValid = false ∧ t = raiseReject .notConfigured s) ∨
    (s.status.fatal = false ∧ s.status.cfgValid = true ∧ ¬LengthLegal s ∧
      t = raiseFatal .lenMisaligned s) ∨
    (CanProcess s ∧ t = writeBack s) := by
  cases hf : s.status.fatal with
  | true => rw [exec_process_locked hf] at h; cases h; exact .inl ⟨rfl, rfl⟩
  | false =>
    cases hc : s.status.cfgValid with
    | false =>
      rw [exec_process_guard hf hc] at h; cases h; exact .inr (.inl ⟨rfl, rfl, rfl⟩)
    | true =>
      by_cases hl : LengthLegal s
      · rw [exec_process_completes ⟨hf, hc, hl⟩] at h; cases h
        exact .inr (.inr (.inr ⟨⟨hf, hc, hl⟩, rfl⟩))
      · rw [exec_process_misaligned hf hc hl] at h; cases h
        exact .inr (.inr (.inl ⟨rfl, rfl, hl, rfl⟩))

/-- What COMMIT can answer. -/
theorem exec_commit_cases {s t : State} (h : exec .commit s = .next t) :
    (s.status.fatal = true ∧ t = s) ∨
    (∃ e, s.status.fatal = false ∧ topologyError s = some e ∧
      t = raiseFatal e (clearCfgValid s)) ∨
    (s.status.fatal = false ∧ TopologyLegal s ∧ t = s.setStatus (statusCommitted s.status)) := by
  cases hf : s.status.fatal with
  | true => rw [exec_commit_locked hf] at h; cases h; exact .inl ⟨rfl, rfl⟩
  | false =>
    rw [exec_commit_free hf] at h
    cases h
    unfold commitState
    cases he : topologyError s with
    | none => exact .inr (.inr ⟨rfl, topologyError_eq_none.1 he, rfl⟩)
    | some e => exact .inr (.inl ⟨e, rfl, rfl, rfl⟩)

/-- What an illegal command word can answer. -/
theorem rejectIllegal_cases {s t : State} (h : rejectIllegal s = .next t) :
    (s.status.fatal = true ∧ t = s) ∨
    (s.status.fatal = false ∧ t = raiseReject .illegalCmd s) := by
  unfold rejectIllegal at h
  cases hf : s.status.fatal with
  | true => rw [unlessLocked_locked hf] at h; cases h; exact .inl ⟨rfl, rfl⟩
  | false => rw [unlessLocked_free hf] at h; cases h; exact .inr ⟨rfl, rfl⟩

/-- Every command answers a next state. -/
theorem exec_answers (i : Instr) (s : State) : ∃ t, exec i s = .next t := by
  cases i
  · exact ⟨_, rfl⟩
  · exact ⟨_, rfl⟩
  · exact ⟨_, rfl⟩
  · exact ⟨_, rfl⟩

end Sys2Proof.Machine
end

