-- ==== Sys2Proof/Laws/Bus.lean ====
section
/-! SUPPORT. What the decoder accepts, which register an access reaches, and everything one step can do. -/

namespace Sys2Proof

theorem mbz_op_word (w : Word) : w = mbzField w ++ opField w := by
  apply BitVec.eq_of_getLsbD_eq
  intro i hi
  simp only [mbzField, opField, BitVec.getLsbD_append, BitVec.getLsbD_extractLsb', Nat.zero_add]
  by_cases h : i < 4
  · simp [h]
  · simp [h, show i - 4 < 28 by omega, show 4 + (i - 4) = i by omega]

theorem decodeOp_eq_ok {op : BitVec 4} {i : Instr} : decodeOp op = .ok i ↔ op = encodeOp i := by
  cases i <;> revert op <;> decide

/-- The decoder accepts exactly the words the encoder makes. -/
theorem decode_eq_ok {w : Word} {i : Instr} : decode w = .ok i ↔ w = encode i := by
  unfold decode
  constructor
  · intro h
    split at h
    · next h0 =>
      rw [mbz_op_word w, h0, decodeOp_eq_ok.1 h]; rfl
    · cases h
  · rintro rfl
    cases i <;> rfl

@[simp] theorem encode_nop : encode .nop = 0x00000000#32 := rfl
@[simp] theorem encode_commit : encode .commit = 0x00000001#32 := rfl
@[simp] theorem encode_process : encode .process = 0x00000002#32 := rfl
@[simp] theorem encode_softReset : encode .softReset = 0x0000000F#32 := rfl

/-- A word that is none of the four command words is the encoding of no command. -/
theorem ne_encode {w : Word} : (∀ i, w ≠ encode i) ↔
    w ≠ 0x00000000#32 ∧ w ≠ 0x00000001#32 ∧ w ≠ 0x00000002#32 ∧ w ≠ 0x0000000F#32 :=
  ⟨fun h => ⟨h .nop, h .commit, h .process, h .softReset⟩,
    fun h i => by cases i <;> simp [h.1, h.2.1, h.2.2.1, h.2.2.2]⟩

end Sys2Proof

namespace Sys2Proof.Machine

/-! ### Which register an access reaches -/

theorem target_some {s : State} {width : Nat} {off : Offset} {r : Reg}
    (h : target s width off = some r) :
    width = 32 ∧ off.toNat % 4 = 0 ∧ regAt s.bufBits.toNat off.toNat = some r := by
  unfold target at h
  split at h
  · next hc => exact ⟨hc.1, hc.2, h⟩
  · cases h

theorem lowRegs_get (k : Nat) : lowRegs[k]? = some Reg.cmd ↔ k = 2 := by
  by_cases h : k < 13
  · interval_cases k <;> simp [lowRegs]
  · constructor
    · intro hc
      have : lowRegs[k]? = none := List.getElem?_eq_none (by simp [lowRegs]; omega)
      rw [this] at hc; cases hc
    · omega

theorem regAt_cmd {b n : Nat} (h : regAt b n = some .cmd) : n / 4 = 2 := by
  unfold regAt at h
  split at h
  · exact (lowRegs_get _).1 h
  · repeat' split at h
    all_goals cases h

/-- Only a 32-bit access at 0x00008 reaches `CMD`. -/
theorem target_cmd {s : State} {width : Nat} {off : Offset} :
    target s width off = some .cmd ↔ width = 32 ∧ off = cmdOffset := by
  constructor
  · intro h
    obtain ⟨hw, ha, hr⟩ := target_some h
    have := regAt_cmd hr
    refine ⟨hw, BitVec.eq_of_toNat_eq ?_⟩
    show off.toNat = 8
    omega
  · rintro ⟨rfl, rfl⟩
    simp only [target, cmdOffset]
    rfl

/-- An access to `IN_BUF[j]` is inside the buffer. -/
theorem regAt_inBuf {b n j : Nat} (h : regAt b n = some (.inBuf j)) : j < b := by
  unfold regAt at h
  split at h
  · next hn =>
    have hk : n / 4 < 13 := by omega
    generalize n / 4 = k at *
    interval_cases k <;> simp [lowRegs] at h
  · repeat' split at h
    all_goals simp only [reduceCtorEq, Option.some.injEq, Reg.inBuf.injEq] at h
    omega

/-! ### What a command, a write and a step can do -/

/-- What the command a word selects can answer. -/
theorem command_cases {w : Word} {s : State} {o : Host.Outcome State Fault Refusal}
    (h : command w s = o) :
    (∃ i, w = encode i ∧ o = exec i s) ∨ ((∀ i, w ≠ encode i) ∧ o = rejectIllegal s) := by
  subst h
  unfold command
  cases hd : decode w with
  | ok i => exact .inl ⟨i, decode_eq_ok.1 hd, rfl⟩
  | error e =>
    refine .inr ⟨fun i hi => ?_, rfl⟩
    rw [decode_eq_ok.2 hi] at hd; cases hd

theorem command_encode (i : Instr) (s : State) : command (encode i) s = exec i s := by
  unfold command; rw [decode_eq_ok.2 rfl]

theorem command_illegal {w : Word} (h : ∀ i, w ≠ encode i) (s : State) :
    command w s = rejectIllegal s := by
  rcases command_cases (rfl : command w s = _) with ⟨i, hi, -⟩ | ⟨-, ho⟩
  · exact absurd hi (h i)
  · exact ho

/-- Under the fatal lock only the command word of SOFT_RESET does anything
(60_exceptions.md R133). -/
theorem command_of_locked {s : State} {w : Word} (hf : s.status.fatal = true)
    (hw : w ≠ encode .softReset) : command w s = .next s := by
  rcases command_cases (rfl : command w s = _) with ⟨i, rfl, h⟩ | ⟨-, h⟩
  · rw [h]
    cases i with
    | nop => rfl
    | commit => exact exec_commit_locked hf
    | process => exact exec_process_locked hf
    | softReset => exact absurd rfl hw
  · rw [h]; exact unlessLocked_locked hf _

/-- A command always answers a next state. -/
theorem command_answers (w : Word) (s : State) : ∃ t, command w s = .next t := by
  rcases command_cases (rfl : command w s = _) with ⟨i, -, h⟩ | ⟨-, h⟩
  · rw [h]; exact exec_answers i s
  · rw [h]; exact ⟨_, rfl⟩

theorem busWrite_cmd (s : State) (w : Word) :
    busWrite 32 cmdOffset w s = thenAnswer .written (command w s) := by
  unfold busWrite
  rw [target_cmd.2 ⟨rfl, rfl⟩]
  exact if_pos rfl

/-- The step whose next input writes `CMD`. -/
theorem step_of_command {s : State} {w : Word} {rest : List Input}
    (h : s.pending = .busWrite 32 cmdOffset w :: rest) :
    step s = thenAnswer .written (command w (s.setPending rest)) := by
  unfold step advance; rw [h]; exact busWrite_cmd _ _

/-- Everything one step can do when it answers a next state: idle, a read, a command (a write of `w`
to `CMD`), a write to another register, a bus error, or the hardware reset. -/
theorem step_cases {s t : State} (h : step s = .next t) :
    (s.pending = [] ∧ t = s) ∨
    (∃ width off r rest, s.pending = .busRead width off :: rest ∧
      target s width off = some r ∧
      t = (s.setPending rest).answer (.data (readReg s r))) ∨
    (∃ w rest u, s.pending = .busWrite 32 cmdOffset w :: rest ∧
      command w (s.setPending rest) = .next u ∧ t = u.answer .written) ∨
    (∃ width off v r rest, s.pending = .busWrite width off v :: rest ∧
      target s width off = some r ∧ r ≠ .cmd ∧
      t = (writeReg (s.setPending rest) r v).answer .written) ∨
    (∃ width off rest, (s.pending = .busRead width off :: rest ∨
      ∃ v, s.pending = .busWrite width off v :: rest) ∧ target s width off = none ∧
      t = (s.setPending rest).answer (.busError off)) ∨
    (∃ rest, s.pending = .rst :: rest ∧ t = hardReset (s.setPending rest)) := by
  unfold step advance at h
  cases hp : s.pending with
  | nil => rw [hp] at h; cases h; exact .inl ⟨rfl, rfl⟩
  | cons i rest =>
    rw [hp] at h
    right
    have htgt : ∀ width off, target (s.setPending rest) width off = target s width off :=
      fun _ _ => rfl
    cases i with
    | busRead width off =>
      simp only [perform, busRead, htgt] at h
      cases hr : target s width off with
      | none =>
        rw [hr] at h; cases h
        exact .inr (.inr (.inr (.inl ⟨width, off, rest, .inl rfl, hr, rfl⟩)))
      | some r =>
        rw [hr] at h; cases h
        exact .inl ⟨width, off, r, rest, rfl, hr, by cases r <;> rfl⟩
    | busWrite width off v =>
      simp only [perform, busWrite, htgt] at h
      cases hr : target s width off with
      | none =>
        rw [hr] at h; cases h
        exact .inr (.inr (.inr (.inl ⟨width, off, rest, .inr ⟨v, rfl⟩, hr, rfl⟩)))
      | some r =>
        rw [hr] at h
        simp only at h
        split at h
        · next hcmd =>
          subst hcmd
          obtain ⟨rfl, rfl⟩ := target_cmd.1 hr
          obtain ⟨u, hu⟩ := command_answers v (s.setPending rest)
          rw [hu] at h; cases h
          exact .inr (.inl ⟨v, rest, u, rfl, hu, rfl⟩)
        · next hcmd =>
          cases h
          exact .inr (.inr (.inl ⟨width, off, v, r, rest, rfl, hr, hcmd, rfl⟩))
    | rst => cases h; exact .inr (.inr (.inr (.inr ⟨rest, rfl, rfl⟩)))
    | rstDuring off => cases h
    | twoMasters a b => cases h

end Sys2Proof.Machine
end

