-- ==== Sys2Proof/Laws/PerInstr.lean ====
section
/-! SUPPORT. What holds of each command as syntax: it is well formed and its word is one of the table's. -/

/-- The command's word is one of the four command words, with `MBZ` zero and the command's opcode in
`OP` (30_encoding.md R70, R71). -/
def Sys2Proof.Laws.EncodesLegally.Statement (i : Sys2Proof.Instr) : Prop :=
  i.wellFormed = true ∧ Sys2Proof.wordWellFormed (Sys2Proof.encode i) = true ∧
    Sys2Proof.mbzField (Sys2Proof.encode i) = 0#28 ∧
    Sys2Proof.opField (Sys2Proof.encode i) = Sys2Proof.encodeOp i

theorem Sys2Proof.Laws.EncodesLegally.nop : Sys2Proof.Laws.EncodesLegally.Statement .nop := by
  unfold Sys2Proof.Laws.EncodesLegally.Statement; decide

theorem Sys2Proof.Laws.EncodesLegally.commit :
    Sys2Proof.Laws.EncodesLegally.Statement .commit := by
  unfold Sys2Proof.Laws.EncodesLegally.Statement; decide

theorem Sys2Proof.Laws.EncodesLegally.process :
    Sys2Proof.Laws.EncodesLegally.Statement .process := by
  unfold Sys2Proof.Laws.EncodesLegally.Statement; decide

theorem Sys2Proof.Laws.EncodesLegally.softReset :
    Sys2Proof.Laws.EncodesLegally.Statement .softReset := by
  unfold Sys2Proof.Laws.EncodesLegally.Statement; decide
end

