-- ==== Sys2Proof/Tests/Slice0.lean ====
section
/-! SUPPORT. Tests of the model against the vectors of 95_test_vectors.md, and a witness for the hypotheses of every statement. -/

namespace Sys2Proof.Machine.Test

open Sys2Proof Sys2Proof.Machine

/-! ### Decoding: the words of 30_encoding.md R71 and two illegal ones, bit by bit -/

theorem test_decode_nop : decode 0b00000000000000000000000000000000#32 = .ok .nop := by decide
theorem test_decode_commit : decode 0b00000000000000000000000000000001#32 = .ok .commit := by decide
theorem test_decode_process : decode 0b00000000000000000000000000000010#32 = .ok .process := by
  decide
theorem test_decode_soft_reset : decode 0b00000000000000000000000000001111#32 = .ok .softReset := by
  decide

/-- V-IL1, V-IL3 and V-IL4. -/
theorem test_decode_illegal :
    decode 0x00000003#32 = .error (.reservedOpcode 3#4) ∧
    decode 0x00000012#32 = .error .mbzNonzero ∧ decode 0x80000001#32 = .error .mbzNonzero := by
  decide

/-- The ill-formed words the check of WellFormed.lean refuses, and a well-formed one. -/
theorem test_ill_formed_words :
    wordWellFormed 0x00000003#32 = false ∧ wordWellFormed 0x0000000E#32 = false ∧
    wordWellFormed 0x00000012#32 = false ∧ wordWellFormed 0x80000001#32 = false ∧
    wordWellFormed 0x0000000F#32 = true := by
  decide

theorem test_table_word : decodeTableWord 32 2 = some .process ∧ decodeTableWord 32 18 = none := by
  decide

/-! ### Small states -/

/-- `STATUS` of a configured block. -/
def valid : Status := Status.reset

/-- The reset state with a topology of `n` layers. -/
def topo (n : BitVec 5) (b0 b1 : Half) : State :=
  { State.reset with
    ctrl := { Ctrl.reset with nm1 := n }
    bound := (boundReset.set 0 b0).set 1 b1 }

/-- The running example `EX` of 41_engine.md: layers {2, 4}, word formats, payload `O O O O`. -/
def ex (m : Mode) (tag len : Half) (f : Word) : State :=
  { topo 1 2 4 with
    ctrl := { Ctrl.reset with mode := m, nm1 := 1 }
    inTag := tag, inLen := len, flags := f
    inBuf := [(0, 0x81), (1, 0x81), (2, 0x81), (3, 0x81)] }

/-- `EX` with F = 10 and F = 01, LAYERED and INDIVIDUAL. -/
def l10 : State := ex .layered 0x6B21 4 2
def l01 : State := ex .layered 0x6B21 4 1
def l00 : State := ex .layered 0x6B21 4 0
def l11 : State := ex .layered 0x6B21 4 3
def i10 : State := ex .individual 0x6B21 4 2
def i01 : State := ex .individual 0x6B21 4 1
/-- A no-data frame, a FER frame without payload, a bad tag, a misaligned length. -/
def nd : State := ex .layered 0x6B21 0 3
def fe : State := ex .layered 0x6B20 0 3
def san : State := ex .layered 0x1234 4 0
def mis : State := ex .layered 0x6B21 3 0
/-- Not configured, and under the lock with `STATUS = 0x45`. -/
def unconfigured : State := clearCfgValid l10
def locked : State := raiseFatal .lenMisaligned l10

/-- `s` with one thing left for the host to do. -/
def next (i : Input) (s : State) : State := s.setPending [i]

/-! ### One step against the vectors -/

/-- V-L10 of section 2.2 (the source's S2). -/
theorem test_process_layered :
    let t := writeBack l10
    t.outTag = 0x6B21 ∧ t.outLen = 2 ∧ (List.range 5).map (outElem t) = [0x81, 0x81, 0, 0, 0] ∧
      t.applied = 2 ∧ t.cumul = 2 ∧ t.reach = 3 ∧ statusWord t.status = 0x00010803 := by
  decide

/-- V-I01 of section 2.2. -/
theorem test_process_individual :
    let t := writeBack i01
    t.outTag = 0x6B20 ∧ t.outLen = 4 ∧ (List.range 5).map (outElem t) = [0, 0, 0x81, 0x81, 0] ∧
      t.applied = 1 ∧ t.cumul = 1 ∧ t.reach = 3 ∧ statusWord t.status = 0x00000003 := by
  decide

/-- V-C5, V-C6 and V-C7 of section 2.5: equal boundaries fail, 641 is above the capacity, 640 passes. -/
theorem test_commit_bounds :
    statusWord (commitState (clearCfgValid (topo 1 2 2))).status = 0x00000024 ∧
    statusWord (commitState (clearCfgValid (topo 0 641 0))).status = 0x00000034 ∧
    statusWord (commitState (clearCfgValid (topo 0 640 0))).status = 0x00000001 := by
  decide

/-- V-SR1 of section 2.6: from `STATUS = 0x45`, with `IN_BUF` kept. -/
theorem test_soft_reset_leaves_lock :
    statusWord locked.status = 0x00000045 ∧ statusWord (resetRegs locked).status = 0x00000001 ∧
    inElem (resetRegs locked) 3 = 0x81 := by
  decide

/-- V-NOP2 and V-IL6 of section 2.6. -/
theorem test_illegal_then_nop :
    let s := raiseReject .illegalCmd { State.reset with status := { valid with done := true } }
    statusWord s.status = 0x00000091 ∧ exec .nop s = .next s :=
  ⟨by decide, rfl⟩

/-- V-B1, V-B3, V-B4, V-B5, V-B7 of section 2.7. -/
theorem test_bus_reads :
    (busRead 32 0x0000C#20 State.reset).resp = some (.data 0x02800020) ∧
    (busRead 32 0x00034#20 State.reset).resp = some (.busError 0x00034#20) ∧
    (busRead 32 0x00002#20 State.reset).resp = some (.busError 0x00002#20) ∧
    (busRead 16 0x00004#20 State.reset).resp = some (.busError 0x00004#20) ∧
    (busRead 32 0x40A00#20 State.reset).resp = some (.busError 0x40A00#20) := by
  decide

/-- V-B11 and V-B12 of section 2.7. -/
theorem test_reserved_bits :
    readReg (writeReg State.reset .ctrl 0xFFFFFFFF) .ctrl = 0x00001F07 ∧
    readReg (writeReg State.reset (.bound 0) 0x000100A0) (.bound 0) = 0x000000A0 ∧
    (writeReg State.reset .ctrl 0xFFFFFFFF).status.cfgValid = false := by
  decide

/-- The first lines of program P3 of section 3, and `SETCTRL` of program P2 (30_encoding.md R75). -/
theorem test_program_lines :
    Line.expand (.frame 0x6B21 100 []) =
      [.busWrite 32 0x00010#20 0x00006B21, .busWrite 32 0x00014#20 0x00000064] ∧
    Line.expand (.setctrl 1 0 0 3) = [.busWrite 32 0x00000#20 0x00000201] ∧
    Line.expand (.fill 159 161 0x7F) =
      [.busWrite 32 0x4027C#20 0x7F, .busWrite 32 0x40280#20 0x7F] := by
  decide

/-! ### Witnesses: the hypotheses of each statement are met -/

theorem exec_l10 : exec .process l10 = .next (writeBack l10) := exec_process_completes (by decide)
theorem exec_l00 : exec .process l00 = .next (writeBack l00) := exec_process_completes (by decide)
theorem exec_l11 : exec .process l11 = .next (writeBack l11) := exec_process_completes (by decide)
theorem exec_i10 : exec .process i10 = .next (writeBack i10) := exec_process_completes (by decide)
theorem exec_i01 : exec .process i01 = .next (writeBack i01) := exec_process_completes (by decide)

theorem witness_DecodeEncodeAgree :
    Instr.process.wellFormed = true ∧ decode 0x0000000F#32 = .ok .softReset := by decide

/-- A tag word of the other vocabulary is INVALID. -/
theorem witness_TagVocabularies :
    decodeTag san.inTag san.ctrl.ifmt = none ∧ decodeTag 0x0021#16 .word = none := by decide

theorem witness_StepRunsTheDecodedInstruction :
    (next (.busWrite 32 0x00008#20 2) l10).pending = .busWrite 32 0x00008#20 2 :: [] ∧
    decode 2 = .ok .process ∧ Instr.process.wellFormed = true := by decide

/-- Both clauses of the dispatch, under the lock, at the two words around SOFT_RESET. -/
theorem witness_DispatchOfCommandWords :
    (next (.busWrite 32 0x00008#20 0x0000000E) locked).pending = [.busWrite 32 0x00008#20 0xE] ∧
    (next (.busWrite 32 0x00008#20 0x0000000F) locked).pending = [.busWrite 32 0x00008#20 0xF] ∧
    locked.status.fatal = true ∧ (0x0000000E#32 ≠ 0x0000000F#32) ∧
    ¬(locked.status.fatal = true ∧ (0x0000000F#32 ≠ 0x0000000F#32)) := by decide

theorem witness_StepsRefuseOnlyInputsOutsideTheSpec :
    State.reset.pending = [] ∧
    (next (.rstDuring 8) State.reset).pending.head? = some (.rstDuring 8) ∧
    (next (.twoMasters 0 8) State.reset).pending.head? = some (.twoMasters 0 8) := by decide

theorem witness_NopChangesNothing :
    (next (.busWrite 32 0x00008#20 0) locked).pending = .busWrite 32 0x00008#20 0x00000000#32 :: [] := by
  decide

/-- One state for each of the four outcomes of COMMIT; the legal one has its one layer at the capacity. -/
theorem witness_CommitValidatesTheTopology :
    (topo 1 0 4).status.fatal = false ∧ up (topo 1 0 4) 0 = 0 ∧
    (topo 1 2 2).status.fatal = false ∧ up (topo 1 2 2) 0 ≠ 0 ∧
    (∃ i, i < layers (topo 1 2 2) ∧ 1 ≤ i ∧ up (topo 1 2 2) i ≤ up (topo 1 2 2) (i - 1)) ∧
    (topo 0 641 0).bufBits < up (topo 0 641 0) (layers (topo 0 641 0) - 1) ∧
    TopologyLegal (topo 0 640 0) ∧ 0 < layers (topo 0 640 0) ∧
    TopologyLegal (topo 1 1 2) ∧ 1 < layers (topo 1 1 2) := by decide

theorem witness_CommitPassesOnLegalTopology :
    (clearCfgValid (topo 1 639 640)).status.fatal = false ∧
    TopologyLegal (clearCfgValid (topo 1 639 640)) := by decide

theorem witness_CommitIgnoresUnusedBoundaries : layers (topo 1 2 4) ≤ (2 : Fin 32).val := by decide

theorem witness_IllegalWordsAreRejected :
    (4 ≤ (3#32).toNat ∨ (3#32) = 3#32) ∧ (3#32) ≠ 0x0000000F#32 ∧
    4 ≤ (0x0000000E#32).toNat ∧ (0x0000000E#32) ≠ 0x0000000F#32 ∧
    4 ≤ (0x00000010#32).toNat ∧ (0x00000010#32) ≠ 0x0000000F#32 ∧
    l10.status.fatal = false ∧ locked.status.fatal = true := by decide

theorem witness_FatalErrorsArePrecise :
    exec .process mis = .next (raiseFatal .lenMisaligned mis) ∧ mis.status.fatal = false ∧
    (raiseFatal .lenMisaligned mis).status.fatal = true ∧
    exec .commit (topo 1 0 4) = .next (raiseFatal .cfgBoundZero (clearCfgValid (topo 1 0 4))) ∧
    (topo 1 0 4).status.fatal = false ∧
    (raiseFatal .cfgBoundZero (clearCfgValid (topo 1 0 4))).status.fatal = true :=
  ⟨exec_process_misaligned (by decide) (by decide) (by decide), by decide, by decide,
    (exec_commit_free (by decide)).trans (congrArg _ (by decide)), by decide, by decide⟩

theorem witness_LockRefusesCommandsOnly :
    locked.status.fatal = true ∧ (2#32) ≠ 0x0000000F#32 ∧
    target locked 32 0x00014#20 = some .inLen ∧ Reg.inLen ≠ Reg.cmd ∧
    target locked 32 0x00008#20 = some .cmd ∧
    target locked 32 0x00000#20 = some .ctrl ∧ Reg.ctrl ≠ Reg.cmd ∧
    target locked 32 0x000FC#20 = some (.bound 31) ∧ Reg.bound 31 ≠ Reg.cmd := by decide

/-- `step` from the locked state with the reset input, and with SOFT_RESET, to a state without the lock. -/
theorem witness_OnlyResetsLeaveTheLock :
    step (next .rst locked) = .next (hardReset locked) ∧
    step (next (.busWrite 32 cmdOffset 0x0000000F) locked) =
      .next ((resetRegs locked).answer .written) ∧
    (next .rst locked).status.fatal = true ∧ (hardReset locked).status.fatal = false ∧
    (next (.busWrite 32 cmdOffset 0x0000000F) locked).status.fatal = true ∧
    ((resetRegs locked).answer .written).status.fatal = false ∧
    (exec .process unconfigured = .next (raiseReject .notConfigured unconfigured) ∧
      unconfigured.status.fatal = false ∧
      errIsFatal (raiseReject .notConfigured unconfigured).status.err = false ∧
      Instr.process ≠ Instr.nop) :=
  ⟨rfl, rfl, by decide, by decide, by decide, by decide, exec_process_guard (by decide) (by decide),
    by decide, by decide, by decide⟩

/-- Every clause of the priority rule: under the lock; each check of COMMIT; each check of PROCESS; a
sub-word and a misaligned write at `CMD`. -/
theorem witness_ErrorPriority :
    (locked.status.fatal = true ∧ (3#32) ≠ 0x0000000F#32) ∧
    (l10.status.fatal = false ∧ (∀ i, (3#32) ≠ encode i) ∧ ∃ t, command 3#32 l10 = .next t) ∧
    (∃ t, exec .commit (topo 1 0 0) = .next t) ∧ up (topo 1 0 0) 0 = 0 ∧
    up (topo 1 2 2) 0 ≠ 0 ∧
    (∃ i, i < layers (topo 1 2 2) ∧ 1 ≤ i ∧ up (topo 1 2 2) i ≤ up (topo 1 2 2) (i - 1)) ∧
    (up (topo 1 2 641) 0 ≠ 0 ∧ ¬(∃ i, i < layers (topo 1 2 641) ∧ 1 ≤ i ∧
      up (topo 1 2 641) i ≤ up (topo 1 2 641) (i - 1)) ∧
      (topo 1 2 641).bufBits < up (topo 1 2 641) (layers (topo 1 2 641) - 1)) ∧
    (unconfigured.status.fatal = false ∧ unconfigured.status.cfgValid = false) ∧
    (mis.status.fatal = false ∧ mis.status.cfgValid = true ∧ inputTag mis ≠ none ∧
      ¬LengthLegal mis) ∧
    (san.status.fatal = false ∧ san.status.cfgValid = true ∧ inputTag san = none) ∧
    ((0x00008#20).toNat / 4 = 2 ∧ ¬((16 : Nat) = 32 ∧ (0x00008#20).toNat % 4 = 0)) ∧
    ((0x0000A#20).toNat / 4 = 2 ∧ ¬((32 : Nat) = 32 ∧ (0x0000A#20).toNat % 4 = 0)) :=
  ⟨by decide, ⟨by decide, by intro i; cases i <;> decide, command_answers _ _⟩, exec_answers _ _,
    by decide⟩

/-- A step that changes `CFG_VALID`, and the premises of the other clauses. -/
theorem witness_CfgValidIsWrittenAsStated :
    (topo 1 2 4).status.fatal = false ∧ (∃ t, exec .commit (topo 1 2 4) = .next t) ∧
    (unconfigured.status.fatal = false ∧ unconfigured.status.cfgValid = false) ∧
    step (next (.busWrite 32 0x0007C#20 0) l10) = .next (l10.setPending [] |>.answer (.busError 0x7C)) ∧
    (∃ t, step (next (.busWrite 32 0x00080#20 2) l10) = .next t ∧
      t.status.cfgValid ≠ (next (.busWrite 32 0x00080#20 2) l10).status.cfgValid) :=
  ⟨by decide, exec_answers _ _, by decide, rfl, _, rfl, by decide⟩

theorem witness_DoneIsWrittenAsStated :
    l10.status.fatal = false ∧ exec .process l10 = .next (writeBack l10) ∧
    (∃ t, exec .commit l10 = .next t) ∧ (∀ i, (3#32) ≠ encode i) ∧
    (∃ t, command 3#32 l10 = .next t) ∧ locked.status.fatal = true ∧
    (∃ t, command 2#32 locked = .next t) :=
  ⟨by decide, exec_l10, exec_answers _ _, by intro i; cases i <;> decide, command_answers _ _,
    by decide, command_answers _ _⟩

theorem witness_DiagnosticsAreWrittenAsStated :
    CanProcess l10 ∧ TopologyLegal l10 ∧ exec .process l10 = .next (writeBack l10) ∧
    firstTrunc l10 = some 1 ∧ (writeBack l00).status.trunc = false ∧
    (∃ t, command 2#32 mis = .next t) ∧ (2#32) ≠ 0x0000000F#32 ∧
    ¬((2#32) = 0x00000002#32 ∧ CanProcess mis) :=
  ⟨by decide, by decide, exec_l10, by decide, by decide, command_answers _ _, by decide, by decide⟩

theorem witness_FrameCounterCountsCompletions :
    CanProcess l10 ∧ exec .process l10 = .next (writeBack l10) ∧
    (∃ t, step (next (.busWrite 32 cmdOffset 2) mis) = .next t) ∧
    (next (.busWrite 32 cmdOffset 2) mis).pending.head? ≠ some .rst ∧
    ¬NextIsCommand (next (.busWrite 32 cmdOffset 2) mis) 0x0000000F#32 ∧
    ¬(NextIsCommand (next (.busWrite 32 cmdOffset 2) mis) 0x00000002#32 ∧
      CanProcess (next (.busWrite 32 cmdOffset 2) mis)) ∧
    (∃ t, step (next .rst l10) = .next t) ∧ (next .rst l10).pending.head? = some .rst :=
  ⟨by decide, exec_l10, ⟨_, rfl⟩, by decide, by decide, by decide, ⟨_, rfl⟩, by decide⟩

theorem witness_WritersOfEachRegister :
    (∃ t, command 2#32 l10 = .next t) ∧ (2#32) ≠ 0x0000000F#32 ∧
    (0x00080#20) ≠ 0x00008#20 ∧ (∃ t, perform (.busWrite 32 0x00080#20 2) l10 = .next t) :=
  ⟨command_answers _ _, by decide, by decide, ⟨_, rfl⟩⟩

theorem witness_ProcessNeedsValidConfiguration :
    unconfigured.status.fatal = false ∧ unconfigured.status.cfgValid = false := by decide

/-- Lengths 3 and 5, around the boundary 4, fail; 0 and 4 pass; a bad tag. -/
theorem witness_ProcessChecksTheLength :
    mis.status.fatal = false ∧ mis.status.cfgValid = true ∧ ¬LengthLegal mis ∧
    ¬LengthLegal (ex .layered 0x6B21 5 0) ∧ LengthLegal l10 ∧ LengthLegal nd ∧
    decodeTag san.inTag san.ctrl.ifmt = none := by decide

theorem witness_ProcessWritesBackAllResults : CanProcess l10 := by decide

theorem witness_ProcessKeepsItsInputs :
    CanProcess i01 ∧ exec .process i01 = .next (writeBack i01) := ⟨by decide, exec_i01⟩

theorem witness_SanitizedFrameIsTotalLoss :
    san.status.fatal = false ∧ san.status.cfgValid = true ∧ TopologyLegal san ∧
    decodeTag san.inTag san.ctrl.ifmt = none := by decide

theorem witness_ReachIsTheLengthComparison :
    CanProcess l10 ∧ exec .process l10 = .next (writeBack l10) := ⟨by decide, exec_l10⟩

theorem witness_ReachedLayersFormAPrefix :
    TopologyLegal l10 ∧ LengthLegal l10 ∧ frameLen l10 ≠ 0 ∧
    TopologyLegal nd ∧ LengthLegal nd ∧ frameLen nd = 0 := by decide

/-- With length 2, layer 1 is not reached: flag vectors 01 and 11 agree on the reached layers. -/
theorem witness_UnreachedFlagsHaveNoEffect :
    ∀ i, reached (ex .layered 0x6B21 2 1) i = true →
      (3#32).getLsbD i = (ex .layered 0x6B21 2 1).flags.getLsbD i := by
  intro i h
  have hi : i < 2 := reached_lt h
  interval_cases i
  · rfl
  · revert h; decide

/-- In `l10` layer 1, which holds element 2, is erased; so element 2 is in no intact layer. -/
theorem witness_OnlyIntactLayersAreRead :
    ∀ i, intact l10 i = true → ¬((lo l10 i).toNat ≤ 2 ∧ 2 < (up l10 i).toNat) := by
  intro i h
  have hi : i < 2 := reached_lt (intact_iff.1 h).1
  interval_cases i
  · decide
  · revert h; decide

/-- The first and the last element of each layer of `l10`, and the first element beyond. -/
theorem witness_OverlayCopiesIntactLayers :
    TopologyLegal l10 ∧
    (0 < layers l10 ∧ (lo l10 0).toNat ≤ 0 ∧ 1 < (up l10 0).toNat) ∧
    (1 < layers l10 ∧ (lo l10 1).toNat ≤ 2 ∧ 3 < (up l10 1).toNat) ∧
    (up l10 (layers l10 - 1)).toNat ≤ 4 := by decide

theorem witness_LayeredTruncatesAtLowestErased :
    CanProcess l11 ∧ l11.ctrl.mode = .layered ∧ exec .process l11 = .next (writeBack l11) ∧
    (erased l11 0 = true ∧ ∀ m, m < 0 → erased l11 m = false) ∧
    (erased l10 1 = true ∧ ∀ m, m < 1 → erased l10 m = false) ∧
    CanProcess l10 ∧ CanProcess l00 ∧ l00.ctrl.mode = .layered ∧ (∀ k, erased l00 k = false) ∧
    (CanProcess nd ∧ nd.ctrl.mode = .layered ∧ TopologyLegal nd ∧ frameLen nd = 0) :=
  ⟨by decide, by decide, exec_l11, by decide, by decide, by decide, by decide, by decide,
    truncLayered_eq_none.1 (by decide), by decide⟩

theorem witness_LayeredEqualsTheDescendingScan : l01.ctrl.mode = .layered := by decide

/-- `i10`: the top reached layer 1 is erased and layer 0 is intact. `i01`: the top layer is intact. -/
theorem witness_IndividualTruncatesTheTopRun :
    CanProcess i10 ∧ i10.ctrl.mode = .individual ∧ exec .process i10 = .next (writeBack i10) ∧
    frameLen i10 ≠ 0 ∧ (reached i10 1 = true ∧ ∀ m, 1 < m → reached i10 m = false) ∧ (1 ≤ 1) ∧
    (∀ m, 1 ≤ m → m ≤ 1 → erased i10 m = true) ∧ (∀ b, 1 = b + 1 → erased i10 b = false) ∧
    CanProcess i01 ∧ exec .process i01 = .next (writeBack i01) ∧
    (∃ k, (reached i01 k = true ∧ ∀ m, k < m → reached i01 m = false) ∧ erased i01 k = false) ∧
    (TopologyLegal i01 ∧ erased i01 0 = true ∧ ∀ a, firstTrunc i01 = some a → 0 < a) :=
  ⟨by decide, by decide, exec_i10, by decide, topReached_eq_some.1 (by decide), le_rfl,
    fun m h1 h2 => by obtain rfl : m = 1 := by omega
                      decide,
    fun b h => by obtain rfl : b = 0 := by omega
                  decide,
    by decide, exec_i01, ⟨1, topReached_eq_some.1 (by decide), by decide⟩, by decide, by decide,
    fun k h => absurd (h.symm.trans (by decide : firstTrunc i01 = none)) (by simp)⟩

theorem witness_IndividualKeepsBlankLayers :
    CanProcess i01 ∧ TopologyLegal i01 ∧ i01.ctrl.mode = .individual ∧
    exec .process i01 = .next (writeBack i01) ∧ erased i01 0 = true ∧
    (∀ k, firstTrunc i01 = some k → 0 < k) ∧ (lo i01 0).toNat ≤ 1 ∧ 1 < (up i01 0).toNat :=
  ⟨by decide, by decide, by decide, exec_i01, by decide,
    fun k h => absurd (h.symm.trans (by decide : firstTrunc i01 = none)) (by simp),
    by decide, by decide⟩

theorem witness_AppliedIsErasureOrCascade :
    CanProcess l01 ∧ exec .process l01 = .next (writeBack l01) :=
  ⟨by decide, exec_process_completes (by decide)⟩

/-- One state for each clause of the re-tag rule: `i01` FER by a sentinel, `l10` SYNC, `l01` empty and
erased, `nd` empty and not erased. -/
theorem witness_OutputTagFollowsThePayload :
    (CanProcess i01 ∧ (writeBack i01).outLen ≠ 0 ∧
      ∃ j, j < (writeBack i01).outLen.toNat ∧ overlay i01 j = 0) ∧
    (CanProcess l10 ∧ (writeBack l10).outLen ≠ 0 ∧
      ∀ j, j < (writeBack l10).outLen.toNat → overlay l10 j ≠ 0) ∧
    (CanProcess l01 ∧ (writeBack l01).outLen = 0 ∧ ∃ i, erased l01 i = true) ∧
    (CanProcess nd ∧ (writeBack nd).outLen = 0 ∧ ∀ i, erased nd i = false) ∧
    (TopologyLegal i01 ∧ 1 < (writeBack i01).outLen.toNat ∧ overlay i01 1 = 0) :=
  ⟨⟨by decide, by decide, 0, by decide, by decide⟩, by decide, ⟨by decide, by decide, 0, by decide⟩,
    ⟨by decide, by decide, truncLayered_eq_none.1 (by decide)⟩, by decide⟩

/-- Elements just below and at the output length 2, and the last element of the buffer. -/
theorem witness_OutputBufferIsFullyRewritten :
    CanProcess l10 ∧ exec .process l10 = .next (writeBack l10) ∧ 1 < (writeBack l10).outLen.toNat ∧
    ¬2 < (writeBack l10).outLen.toNat ∧ 639 < l10.bufBits.toNat :=
  ⟨by decide, exec_l10, by decide, by decide, by decide⟩

theorem witness_CumulativeAttribution :
    CanProcess i01 ∧ exec .process i01 = .next (writeBack i01) := ⟨by decide, exec_i01⟩

theorem witness_OutputLengthIsLegal :
    CanProcess l10 ∧ TopologyLegal l10 ∧ exec .process l10 = .next (writeBack l10) :=
  ⟨by decide, by decide, exec_l10⟩

/-- F = 10 below F' = 11. -/
theorem witness_ErasureIsMonotone :
    CanProcess l10 ∧ TopologyLegal l10 ∧
    (∀ i, i < layers l10 → l10.flags.getLsbD i = true → (3#32).getLsbD i = true) ∧
    exec .process l10 = .next (writeBack l10) ∧
    (∃ u, exec .process (l10.setFlags 3#32) = .next u) :=
  ⟨by decide, by decide, by decide, exec_l10, exec_answers _ _⟩

/-- V-RT1's shape: tag-consistent, with equal formats. -/
theorem witness_AllIntactRoundTrip :
    CanProcess l00 ∧ TopologyLegal l00 ∧ inputTag l00 = some .sync ∧
    (∀ i, i < layers l00 → l00.flags.getLsbD i = false) ∧
    exec .process l00 = .next (writeBack l00) ∧ l00.ctrl.ifmt = l00.ctrl.ofmt ∧
    (l00.inLen = 0 ∨ (Tag.sync = .fer ↔ ∃ j, j < l00.inLen.toNat ∧ inElem l00 j = 0)) :=
  ⟨by decide, by decide, by decide, by decide, exec_l00, by decide, by decide⟩

theorem witness_FramesWithoutPayload :
    CanProcess nd ∧ TopologyLegal nd ∧ frameLen nd = 0 ∧ tag0 nd = .sync ∧
    exec .process nd = .next (writeBack nd) ∧
    CanProcess fe ∧ TopologyLegal fe ∧ frameLen fe = 0 ∧ tag0 fe = .fer :=
  ⟨by decide, by decide, by decide, by decide, exec_process_completes (by decide), by decide,
    by decide, by decide, by decide⟩

theorem witness_AllReachedErasedLosesTheFrame :
    CanProcess l11 ∧ TopologyLegal l11 ∧ frameLen l11 ≠ 0 ∧
    (∀ i, reached l11 i = true → l11.flags.getLsbD i = true) ∧
    exec .process l11 = .next (writeBack l11) := by
  refine ⟨by decide, by decide, by decide, fun i h => ?_, exec_l11⟩
  have hi : i < 2 := reached_lt h
  interval_cases i <;> decide

/-- The last mapped and the first unmapped offset of each part of the map. -/
theorem witness_AddressMap :
    639 < State.reset.bufBits.toNat ∧ ¬Mapped 640 0x00034 ∧ ¬Mapped 640 0x0007C ∧
    ¬Mapped 640 0x00100 ∧ ¬Mapped 640 0x3FFFC ∧ ¬Mapped 640 0x40A00 ∧ ¬Mapped 640 0x80A00 ∧
    ¬Mapped 640 0x00002 := by decide

theorem witness_BusErrorsChangeNothing :
    ¬((32 : Nat) = 32 ∧ Mapped 640 0x00034) ∧ ¬((16 : Nat) = 32 ∧ Mapped 640 0x00030) ∧
    ((32 : Nat) = 32 ∧ Mapped 640 0x00030) ∧ ((32 : Nat) = 32 ∧ Mapped 640 0x409FC) := by decide

/-- A read, and the last configured layer of two and of thirty-two. -/
theorem witness_ReadsNeverChangeState :
    (next (.busRead 32 0x00004#20) l10).pending = .busRead 32 0x00004#20 :: [] ∧
    1 < layers l10 ∧ 31 < layers (topo 31 2 4) := by decide

/-- After V-L10 `APPLIED` holds lane 1, and a write of `CTRL` that lowers N to 1 keeps it on a read. -/
theorem witness_AttributionVectorsReadAsStored :
    readReg (writeReg (writeBack l10) .ctrl 0) .applied = 2 ∧
    layers (writeReg (writeBack l10) .ctrl 0) = 1 ∧
    Reg.applied ∈ [Reg.applied, .cumul, .reach] := by decide

/-- `CTRL` = 0x00001203 is INDIVIDUAL, byte in, word out, N = 19 (10_state.md R14); each error code of
30_encoding.md R73 in [7:4] of a configured `STATUS`. -/
theorem test_register_layouts :
    ctrlOfWord 0x00001203 = { mode := .individual, ifmt := .byte, ofmt := .word, nm1 := 18 } ∧
    ctrlWord { mode := .layered, ifmt := .word, ofmt := .byte, nm1 := 31 } = 0x00001F04 ∧
    [ErrCode.ok, .cfgBoundZero, .cfgBoundOrder, .cfgBoundCap, .lenMisaligned, .notConfigured,
      .illegalCmd].map (fun e => statusWord { valid with err := e }) =
      [0x01, 0x11, 0x21, 0x31, 0x41, 0x81, 0x91] := by decide

/-- A hole, `CMD`, a configuration register, and an input element next to the last one. -/
theorem witness_WritesReachOnlyTheirRegister :
    target l10 32 0x00034#20 = none ∧ target l10 32 0x00008#20 = some .cmd ∧
    (target l10 32 0x00000#20 = some .ctrl ∧ Reg.ctrl ≠ Reg.cmd) ∧
    (target l10 32 0x000FC#20 = some (.bound 31) ∧ Reg.bound 31 ≠ Reg.cmd) ∧
    (target l10 32 0x409FC#20 = some (.inBuf 639) ∧ Reg.inBuf 639 ≠ Reg.cmd ∧
      Reg.inBuf 638 ≠ Reg.inBuf 639 ∧ Reg.inBuf 638 ≠ Reg.status ∧
      ¬(Reg.inBuf 639 = Reg.ctrl ∧ Reg.inBuf 638 ∈ [Reg.applied, .cumul, .reach])) ∧
    (Reg.flags ≠ Reg.ctrl ∧ Reg.flags ≠ Reg.status ∧
      ¬(Reg.ctrl = Reg.ctrl ∧ Reg.flags ∈ [Reg.applied, .cumul, .reach])) := by decide

theorem witness_ReadOnlyRegistersIgnoreWrites :
    target l10 32 0x00020#20 = some .outTag ∧
    Reg.outTag ∈ [Reg.status, .param, .frameCnt, .outTag, .outLen, .applied, .cumul, .reach] ∧
    target l10 32 0x80000#20 = some (.outBuf 0) := by decide

/-- Two words that differ only in reserved bits of `CTRL`, and two that differ only above bit 15. -/
theorem witness_ReservedBitsReadZero :
    0xFFFFFFFF#32 &&& ~~~(reservedBits .ctrl) = 0x00001F07#32 &&& ~~~(reservedBits .ctrl) ∧
    0xFFFF0081#32 &&& ~~~(reservedBits (.bound 31)) =
      0x00000081#32 &&& ~~~(reservedBits (.bound 31)) := by decide

theorem witness_InputElementsReadBack : 0 < l10.bufBits.toNat ∧ 639 < l10.bufBits.toNat := by decide

theorem witness_ParamIsConstant : ∃ t, step (next .rst l10) = .next t := ⟨_, rfl⟩

theorem witness_BothResetsLeaveTheResetValues :
    (next .rst locked).pending = .rst :: [] ∧ locked.status.fatal = true ∧
    Instr.process ≠ Instr.softReset := by decide

theorem witness_ResetStateAndFreeInputBuffer : (0 : Nat) ≠ 1 := by decide

theorem witness_StepsKeepTheBufferForm :
    Memory.wf (next (.busWrite 32 0x409FC#20 0x81) l10) ∧
    ∃ t, step (next (.busWrite 32 0x409FC#20 0x81) l10) = .next t :=
  ⟨by decide, _, rfl⟩

theorem witness_ResetMeetsTheInvariant : 640 ≤ (640#16).toNat ∧ 640 ≤ (65535#16).toNat := by decide

/-- `l10` meets the invariant, with a PROCESS as the next input. -/
theorem witness_EveryStepKeepsTheInvariant :
    (next (.busWrite 32 cmdOffset 2) l10).Inv ∧
    ∃ t, step (next (.busWrite 32 cmdOffset 2) l10) = .next t :=
  ⟨{ capacity := by decide, memory := by decide, config := by decide, lock := by decide,
     done := by decide, outLen := by decide, outBuf := fun _ _ => rfl, outTag := .inl (by decide),
     firstTrunc := by decide, nodata := by decide, applied := by decide }, _, rfl⟩

end Sys2Proof.Machine.Test
end

namespace Sys2Proof.Machine

/-! ## State family: who writes which register (10_state.md R30 to R40)

One rule for each writer: a command other than SOFT_RESET, a register write, SOFT_RESET. The
statements about a step are case analyses over `step_cases` that cite these rules. -/

/-! ### What a command writes -/

/-- A COMMIT writes only the bookkeeping fields of `STATUS` (10_state.md R34, R40). -/
theorem exec_commit_status_only {s t : State} (h : exec .commit s = .next t) :
    ∃ c d f e, t = s.setStatus
      { s.status with cfgValid := c, done := d, fatal := f, err := e } := by
  rcases exec_commit_cases h with ⟨-, rfl⟩ | ⟨e, -, -, rfl⟩ | ⟨-, -, rfl⟩ <;>
    exact ⟨_, _, _, _, rfl⟩

/-- A PROCESS that does not complete writes only `DONE`, `FATAL` and `ERR`. -/
theorem exec_process_status_only {s t : State} (h : exec .process s = .next t)
    (hc : ¬CanProcess s) :
    ∃ d f e, t = s.setStatus { s.status with done := d, fatal := f, err := e } := by
  rcases exec_process_cases h with ⟨-, rfl⟩ | ⟨-, -, rfl⟩ | ⟨-, -, -, rfl⟩ | ⟨hp, -⟩
  · exact ⟨_, _, _, rfl⟩
  · exact ⟨_, _, _, rfl⟩
  · exact ⟨_, _, _, rfl⟩
  · exact absurd hp hc

/-- A command other than SOFT_RESET is a PROCESS that completes, or it writes only the bookkeeping
fields of `STATUS`, and `CFG_VALID` among them only if it is COMMIT. -/
theorem command_status_only_or_writeBack {s t : State} {w : Word} (h : command w s = .next t)
    (hw : w ≠ encode .softReset) :
    (w = encode .process ∧ CanProcess s ∧ t = writeBack s) ∨
    ∃ c d f e, t = s.setStatus { s.status with cfgValid := c, done := d, fatal := f, err := e } ∧
      (c = s.status.cfgValid ∨ w = encode .commit) := by
  rcases command_cases h with ⟨i, rfl, hi⟩ | ⟨-, hr⟩
  · cases i with
    | nop => cases hi; exact .inr ⟨_, _, _, _, rfl, .inl rfl⟩
    | commit =>
      obtain ⟨c, d, f, e, rfl⟩ := exec_commit_status_only hi.symm
      exact .inr ⟨c, d, f, e, rfl, .inr rfl⟩
    | process =>
      by_cases hc : CanProcess s
      · rw [exec_process_completes hc] at hi
        cases hi
        exact .inl ⟨rfl, hc, rfl⟩
      · obtain ⟨d, f, e, rfl⟩ := exec_process_status_only hi.symm hc
        exact .inr ⟨_, d, f, e, rfl, .inl rfl⟩
    | softReset => exact absurd rfl hw
  · rcases rejectIllegal_cases hr.symm with ⟨-, rfl⟩ | ⟨-, rfl⟩ <;>
      exact .inr ⟨_, _, _, _, rfl, .inl rfl⟩

theorem command_softReset {s t : State} (h : command (encode .softReset) s = .next t) :
    t = resetRegs s := by
  rw [command_encode, exec_softReset] at h
  cases h; rfl

/-- Commands other than SOFT_RESET write no configuration or input register (10_state.md R40). -/
theorem sameInputs_command {s t : State} {w : Word} (h : command w s = .next t)
    (hw : w ≠ encode .softReset) : SameInputs s t := by
  rcases command_status_only_or_writeBack h hw with ⟨-, -, rfl⟩ | ⟨c, d, f, e, rfl, -⟩
  · exact ⟨rfl, rfl, rfl, rfl, rfl, rfl, fun _ => rfl⟩
  · exact ⟨rfl, rfl, rfl, rfl, rfl, rfl, fun _ => rfl⟩

theorem command_bufBits {s t : State} {w : Word} (h : command w s = .next t) :
    t.bufBits = s.bufBits := by
  by_cases hw : w = encode .softReset
  · subst hw
    rw [command_softReset h]; rfl
  · exact (sameInputs_command h hw).1

/-- Only a PROCESS that completes and SOFT_RESET move the counter (10_state.md R37). -/
theorem command_frameCnt {s t : State} {w : Word} (h : command w s = .next t)
    (hw : w ≠ encode .softReset) (hp : ¬(w = encode .process ∧ CanProcess s)) :
    t.frameCnt = s.frameCnt := by
  rcases command_status_only_or_writeBack h hw with ⟨hw', hc, -⟩ | ⟨c, d, f, e, rfl, -⟩
  · exact absurd ⟨hw', hc⟩ hp
  · rfl

/-- Only COMMIT and SOFT_RESET write `CFG_VALID` (10_state.md R30). -/
theorem command_cfgValid {s t : State} {w : Word} (h : command w s = .next t)
    (hw : w ≠ encode .softReset) (hc : w ≠ encode .commit) :
    t.status.cfgValid = s.status.cfgValid := by
  rcases command_status_only_or_writeBack h hw with ⟨-, -, rfl⟩ | ⟨c, d, f, e, rfl, rfl | hw'⟩
  · rfl
  · rfl
  · exact absurd hw' hc

/-! ### What a register write writes -/

/-- A register write changes no output register (10_state.md R40). -/
theorem sameOutputs_writeReg (s : State) (r : Reg) (v : Word) : SameOutputs s (writeReg s r v) := by
  cases r <;> exact ⟨rfl, rfl, fun _ => rfl, rfl, rfl, rfl, rfl⟩

theorem writeReg_frameCnt (s : State) (r : Reg) (v : Word) :
    (writeReg s r v).frameCnt = s.frameCnt := by
  cases r <;> rfl

theorem writeReg_bufBits (s : State) (r : Reg) (v : Word) :
    (writeReg s r v).bufBits = s.bufBits := by
  cases r <;> rfl

/-- A configuration write clears `CFG_VALID` (10_state.md R30; 40_control.md R83). -/
theorem writeReg_status_config (s : State) {r : Reg} (v : Word)
    (h : r = .ctrl ∨ ∃ i, r = .bound i) :
    (writeReg s r v).status = { s.status with cfgValid := false } := by
  rcases h with rfl | ⟨i, rfl⟩ <;> rfl

/-- Every other register write leaves `STATUS` alone. -/
theorem writeReg_status_other (s : State) {r : Reg} (v : Word)
    (h : ¬(r = .ctrl ∨ ∃ i, r = .bound i)) : (writeReg s r v).status = s.status := by
  cases r with
  | ctrl => exact absurd (.inl rfl) h
  | bound i => exact absurd (.inr ⟨i, rfl⟩) h
  | _ => rfl

/-- A bus write anywhere but to `CMD` is a register write or a bus error. -/
theorem busWrite_cases {s t : State} {width : Nat} {off : Offset} {v : Word}
    (hoff : off ≠ cmdOffset) (h : busWrite width off v s = .next t) :
    t = s.answer (.busError off) ∨
    ∃ r, target s width off = some r ∧ t = (writeReg s r v).answer .written := by
  unfold busWrite at h
  cases hr : target s width off with
  | none => rw [hr] at h; cases h; exact .inl rfl
  | some r =>
    have hcmd : r ≠ .cmd := fun hc => hoff (target_cmd.1 (hc ▸ hr)).2
    simp only [hr, if_neg hcmd] at h
    cases h
    exact .inr ⟨r, rfl, rfl⟩

/-! ### What the resets write -/

/-- The default topology ends after its fifth boundary (70_reset_and_hazards.md R144). -/
theorem boundReset_unused (i : Fin 32) (h : 5 ≤ i.val) : boundReset[i.val]?.getD 0 = 0 := by
  revert i; decide

/-- The full reset table of 70_reset_and_hazards.md R144 after SOFT_RESET. -/
theorem readsAsReset_resetRegs (s : State) : ReadsAsReset s.bufBits (resetRegs s) := by
  have hbound : ∀ i : Fin 32, 5 ≤ i.val → readReg (resetRegs s) (.bound i) = 0 := fun i hi =>
    congrArg (BitVec.setWidth 32) (boundReset_unused i hi)
  have hctrl : ctrlWord Ctrl.reset = 0x00000400#32 := by decide
  have hstatus : statusWord Status.reset = 0x00000001#32 := by decide
  exact ⟨hctrl, ⟨rfl, rfl, rfl, rfl, rfl, hbound⟩, rfl, rfl, rfl, rfl, rfl, fun _ => rfl,
    rfl, rfl, rfl, hstatus, rfl, rfl, rfl⟩

theorem step_of_rst {s : State} {rest : List Input} (h : s.pending = .rst :: rest) :
    step s = .next (hardReset (s.setPending rest)) := by
  unfold step advance; rw [h]; rfl

/-! ### What a step keeps -/

theorem step_bufBits {s t : State} (h : step s = .next t) : t.bufBits = s.bufBits := by
  rcases step_cases h with ⟨-, rfl⟩ | ⟨_, _, _, _, -, -, rfl⟩ | ⟨w, rest, u, -, hu, rfl⟩ |
    ⟨_, _, _, _, _, -, -, -, rfl⟩ | ⟨_, _, _, -, -, rfl⟩ | ⟨_, -, rfl⟩
  · rfl
  · rfl
  · exact (command_bufBits hu :)
  · exact writeReg_bufBits _ _ _
  · rfl
  · rfl

/-- A step that changes `CFG_VALID` is a reset, a COMMIT or a configuration write. -/
theorem step_cfgValid_writer {s t : State} (h : step s = .next t)
    (hne : t.status.cfgValid ≠ s.status.cfgValid) :
    s.pending.head? = some .rst ∨ NextIsCommand s (encode .softReset) ∨
    NextIsCommand s (encode .commit) ∨
    ∃ off v r, s.pending.head? = some (.busWrite 32 off v) ∧ target s 32 off = some r ∧
      (r = .ctrl ∨ ∃ i, r = .bound i) := by
  rcases step_cases h with ⟨-, rfl⟩ | ⟨_, _, _, _, -, -, rfl⟩ | ⟨w, rest, u, hp, hu, rfl⟩ |
    ⟨_, off, v, r, rest, hp, hr, -, rfl⟩ | ⟨_, _, _, -, -, rfl⟩ | ⟨rest, hp, rfl⟩
  · exact absurd rfl hne
  · exact absurd rfl hne
  · by_cases hw : w = encode .softReset
    · exact .inr (.inl (by simp [NextIsCommand, hp, hw]))
    · by_cases hc : w = encode .commit
      · exact .inr (.inr (.inl (by simp [NextIsCommand, hp, hc])))
      · exact absurd (command_cfgValid hu hw hc) hne
  · obtain ⟨rfl, -, -⟩ := target_some hr
    by_cases hc : r = .ctrl ∨ ∃ i, r = .bound i
    · exact .inr (.inr (.inr ⟨off, v, r, by simp [hp], hr, hc⟩))
    · exact absurd (congrArg Status.cfgValid (writeReg_status_other _ v hc)) hne
  · exact absurd rfl hne
  · exact .inl (by simp [hp])

/-- A step that is no reset and no PROCESS that completes keeps the counter. -/
theorem step_frameCnt {s t : State} (h : step s = .next t) (hrst : s.pending.head? ≠ some .rst)
    (hsoft : ¬NextIsCommand s (encode .softReset))
    (hproc : ¬(NextIsCommand s (encode .process) ∧ CanProcess s)) : t.frameCnt = s.frameCnt := by
  rcases step_cases h with ⟨-, rfl⟩ | ⟨_, _, _, _, -, -, rfl⟩ | ⟨w, rest, u, hp, hu, rfl⟩ |
    ⟨_, _, _, _, _, -, -, -, rfl⟩ | ⟨_, _, _, -, -, rfl⟩ | ⟨rest, hp, rfl⟩
  · rfl
  · rfl
  · have hsoft' : w ≠ encode .softReset := by
      rintro rfl
      exact hsoft (by simp [NextIsCommand, hp])
    have hproc' : ¬(w = encode .process ∧ CanProcess (s.setPending rest)) := by
      rintro ⟨rfl, hc⟩
      exact hproc ⟨by simp [NextIsCommand, hp], hc⟩
    exact (command_frameCnt hu hsoft' hproc' :)
  · exact writeReg_frameCnt _ _ _
  · rfl
  · exact absurd (by simp [hp]) hrst

/-- Both resets set the counter to 0. -/
theorem step_frameCnt_of_reset {s t : State} (h : step s = .next t)
    (hreset : s.pending.head? = some .rst ∨ NextIsCommand s (encode .softReset)) :
    t.frameCnt = 0 := by
  rcases hreset with hr | hr <;> obtain ⟨rest, hp⟩ := List.head?_eq_some_iff.1 hr
  · rw [step_of_rst hp] at h
    cases h; rfl
  · rw [step_of_command hp, command_encode, exec_softReset] at h
    cases h; rfl

/-! ### The diagnostics of a PROCESS that completes -/

/-- Each vocabulary has a word of its own for each tag. -/
theorem encodeTag_inj {t u : Tag} {f : Format} : encodeTag t f = encodeTag u f ↔ t = u := by
  rw [← decodeTag_eq_some, decodeTag_eq_some.2 rfl, Option.some.injEq, eq_comm]

theorem firstTrunc_lt {s : State} {k : Nat} (h : firstTrunc s = some k) : k < 32 :=
  Nat.lt_of_lt_of_le (erased_lt (firstTrunc_erased h)) (layers_le s)

/-- In a legal topology a truncation happens exactly when the output is shorter than the sanitized
input (10_state.md R34): the first truncated layer is reached, and its lower boundary lies
below it. -/
theorem outputLen_lt_frameLen_iff {s : State} (h : TopologyLegal s) :
    outputLen s < frameLen s ↔ ∃ k, firstTrunc s = some k := by
  cases ht : firstTrunc s with
  | none => simp [outputLen_none ht]
  | some k =>
    obtain ⟨hk, hle⟩ := reached_iff.1 (erased_iff.1 (firstTrunc_erased ht)).1
    have hlt := lo_lt_up h hk
    rw [BitVec.le_def] at hle
    rw [outputLen_some ht, BitVec.lt_def]
    exact iff_of_true (by omega) ⟨k, rfl⟩

theorem writeBack_trunc_iff {s : State} :
    (writeBack s).status.trunc = true ↔ ∃ k, firstTrunc s = some k :=
  Option.isSome_iff_exists

/-- `FIRST_TRUNC` holds the index of the first truncated layer, which fits its 5 bits. -/
theorem writeBack_firstTrunc {s : State} {k : Nat} (h : firstTrunc s = some k) :
    (writeBack s).status.firstTrunc.toNat = k := by
  simp [statusProcessed, h, Nat.mod_eq_of_lt (firstTrunc_lt h)]

theorem writeBack_firstTrunc_none {s : State} (h : (writeBack s).status.trunc = false) :
    (writeBack s).status.firstTrunc = 0 := by
  have hnone : firstTrunc s = none := by simpa [statusProcessed] using h
  simp [statusProcessed, hnone]

theorem writeBack_nodataOut_iff {s : State} :
    (writeBack s).status.nodataOut = true ↔
      (writeBack s).outTag = encodeTag .sync s.ctrl.ofmt ∧ (writeBack s).outLen = 0 := by
  rw [writeBack_outTag, encodeTag_inj]
  exact nodataOut_iff

/-- A command that is neither SOFT_RESET nor a PROCESS that completes keeps the diagnostics. -/
theorem sameDiagnostics_command {s t : State} {w : Word} (h : command w s = .next t)
    (hw : w ≠ encode .softReset) (hp : ¬(w = encode .process ∧ CanProcess s)) :
    SameDiagnostics s t := by
  rcases command_status_only_or_writeBack h hw with ⟨hw', hc, -⟩ | ⟨c, d, f, e, rfl, -⟩
  · exact absurd ⟨hw', hc⟩ hp
  · exact ⟨rfl, rfl, rfl, rfl, rfl⟩

/-! ### Who sets `CFG_VALID` and `DONE` -/

/-- COMMIT sets `CFG_VALID` exactly when the topology is legal (10_state.md R30). -/
theorem exec_commit_cfgValid {s t : State} (hf : s.status.fatal = false)
    (h : exec .commit s = .next t) : t.status.cfgValid = true ↔ TopologyLegal s := by
  rcases exec_commit_cases h with ⟨hlock, -⟩ | ⟨e, -, he, rfl⟩ | ⟨-, hleg, rfl⟩
  · simp [hf] at hlock
  · have hill : ¬TopologyLegal s := fun hleg => by simp [topologyError_eq_none.2 hleg] at he
    exact iff_of_false Bool.false_ne_true hill
  · exact iff_of_true rfl hleg

/-- PROCESS sets `DONE` exactly when it completes (10_state.md R31). -/
theorem exec_process_done {s t : State} (hf : s.status.fatal = false)
    (h : exec .process s = .next t) :
    t.status.done = true ↔ s.status.cfgValid = true ∧ LengthLegal s := by
  rcases exec_process_cases h with ⟨hlock, -⟩ | ⟨-, hc, rfl⟩ | ⟨-, -, hl, rfl⟩ | ⟨⟨-, hc, hl⟩, rfl⟩
  · simp [hf] at hlock
  · exact iff_of_false Bool.false_ne_true (by simp [hc])
  · exact iff_of_false Bool.false_ne_true fun hd => hl hd.2
  · exact iff_of_true rfl ⟨hc, hl⟩

/-- COMMIT clears `DONE`, whether it passes or fails (10_state.md R31). -/
theorem exec_commit_done {s t : State} (hf : s.status.fatal = false)
    (h : exec .commit s = .next t) : t.status.done = false := by
  rcases exec_commit_cases h with ⟨hlock, -⟩ | ⟨e, -, -, rfl⟩ | ⟨-, -, rfl⟩
  · simp [hf] at hlock
  · rfl
  · rfl

theorem command_illegal_done {s t : State} {w : Word} (hf : s.status.fatal = false)
    (hw : ∀ i, w ≠ encode i) (h : command w s = .next t) : t.status.done = false := by
  rw [command_illegal hw] at h
  rcases rejectIllegal_cases h with ⟨hlock, -⟩ | ⟨-, rfl⟩
  · simp [hf] at hlock
  · rfl

/-! ### The statements -/

/-- Settles O17: the writers of `CFG_VALID` are the resets, COMMIT and configuration writes. -/
theorem cfgValidIsWrittenAsStated : Obligations.CfgValidIsWrittenAsStated := by
  refine ⟨fun s t h => ?_, fun _ => rfl, fun _ _ => exec_commit_cfgValid,
    fun s r v h => by rw [writeReg_status_config s v h], fun s t hf hc h => ?_,
    fun _ _ => step_cfgValid_writer⟩
  · rw [exec_softReset] at h
    cases h; rfl
  · rw [exec_process_guard hf hc] at h
    cases h
    exact ⟨rfl, rfl⟩

/-- Settles O18, by what each command can answer. -/
theorem doneIsWrittenAsStated : Obligations.DoneIsWrittenAsStated := by
  refine ⟨fun _ _ => exec_process_done, fun _ _ => exec_commit_done, fun s t h => ?_,
    fun _ _ _ => command_illegal_done, fun s t h => ?_, fun s t w hf hw h => ?_⟩
  · rw [exec_softReset] at h
    cases h; rfl
  · rw [exec_nop] at h
    cases h; rfl
  · rw [command_of_locked hf hw] at h
    cases h; rfl

/-- Settles O19: a truncated layer is reached, so its lower boundary lies below the input length. -/
theorem diagnosticsAreWrittenAsStated : Obligations.DiagnosticsAreWrittenAsStated := by
  refine ⟨fun s t hc htop h => ?_, fun _ _ _ => sameDiagnostics_command, fun s t h => ?_⟩
  · rw [exec_process_completes hc] at h
    cases h
    exact ⟨Option.isNone_iff_eq_none, decide_eq_true_iff, writeBack_nodataOut_iff,
      writeBack_trunc_iff, writeBack_trunc_iff.trans (outputLen_lt_frameLen_iff htop).symm,
      fun _ => writeBack_firstTrunc, writeBack_firstTrunc_none⟩
  · rw [exec_softReset] at h
    cases h
    exact ⟨rfl, rfl, rfl, rfl, rfl⟩

/-- Settles O20, by the cases of a step. -/
theorem frameCounterCountsCompletions : Obligations.FrameCounterCountsCompletions := by
  refine ⟨fun s t hc h => ?_, fun _ _ => step_frameCnt, fun _ _ => step_frameCnt_of_reset⟩
  rw [exec_process_completes hc] at h
  cases h
  exact BitVec.toNat_add _ _

/-- Settles O21: the input frame of commands, the reset table, the output frame of bus writes. -/
theorem writersOfEachRegister : Obligations.WritersOfEachRegister := by
  refine ⟨fun _ _ _ => sameInputs_command,
    fun s => ⟨resetRegs s, rfl, readsAsReset_resetRegs s, fun _ => rfl⟩,
    fun s t width off v hoff h => ?_⟩
  rcases busWrite_cases hoff h with rfl | ⟨r, hr, rfl⟩
  · exact ⟨⟨rfl, rfl, fun _ => rfl, rfl, rfl, rfl, rfl⟩, rfl, .inl rfl⟩
  · refine ⟨sameOutputs_writeReg s r v, writeReg_bufBits s r v, ?_⟩
    by_cases hc : r = .ctrl ∨ ∃ i, r = .bound i
    · exact .inr ⟨writeReg_status_config s v hc, r, hr, hc⟩
    · exact .inl (writeReg_status_other s v hc)

theorem readReg_param (s : State) : readReg s .param = s.bufBits ++ 0x00#8 ++ 0x20#8 := rfl

/-- The three fields of `PARAM` (10_state.md R36). -/
theorem readReg_param_fields (s : State) :
    (readReg s .param).extractLsb' 0 8 = 0x20#8 ∧ (readReg s .param).extractLsb' 8 8 = 0#8 ∧
    (readReg s .param).extractLsb' 16 16 = s.bufBits :=
  ⟨BitVec.extractLsb'_append_eq_right,
    (BitVec.extractLsb'_append_eq_of_le (by decide)).trans BitVec.extractLsb'_append_eq_right,
    (BitVec.extractLsb'_append_eq_of_le (by decide)).trans BitVec.extractLsb'_append_eq_left⟩

/-- Settles O54: `PARAM` is a function of `BUF_BITS`, which every step keeps. -/
theorem paramIsConstant : Obligations.ParamIsConstant := by
  refine ⟨readReg_param_fields, fun s t h => ?_⟩
  rw [readReg_param, readReg_param, step_bufBits h]

end Sys2Proof.Machine

namespace Sys2Proof.Machine

/-! ## Memory family: the slave port (20_memory.md R43 to R50)

The layouts of the register words, one rule for each register write, and the answer to each kind of
access. The statements about the bus are assembled from these. -/

/-! ### Layouts and reserved bits -/

@[simp] theorem modeBit_modeOfBit (b : Bool) : modeBit (modeOfBit b) = b := by cases b <;> rfl

@[simp] theorem formatBit_formatOfBit (b : Bool) : formatBit (formatOfBit b) = b := by
  cases b <;> rfl

/-- `CTRL` reads back the bits of its fields (10_state.md R14). -/
theorem ctrlWord_ctrlOfWord (v : Word) : ctrlWord (ctrlOfWord v) = v &&& 0x00001F07#32 := by
  apply BitVec.eq_of_getLsbD_eq
  intro i hi
  simp only [ctrlWord, ctrlOfWord, modeBit_modeOfBit, formatBit_formatOfBit, BitVec.getLsbD_append,
    BitVec.getLsbD_and, BitVec.getLsbD_extractLsb']
  interval_cases i <;> simp

/-- The mask of `CTRL` covers every field a write of it stores. -/
theorem ctrlOfWord_and_mask (v : Word) : ctrlOfWord (v &&& 0x00001F07#32) = ctrlOfWord v := by
  have hnm1 : BitVec.extractLsb' 8 5 (v &&& 0x00001F07#32) = BitVec.extractLsb' 8 5 v := by
    rw [BitVec.extractLsb'_and]
    exact BitVec.and_allOnes
  simp [ctrlOfWord, hnm1]

/-- A 16-bit register reads back the low half of a word, zero-extended (20_memory.md R43). -/
theorem setWidth_lowHalf (v : Word) :
    (v.setWidth 16).setWidth 32 = v &&& ~~~0xFFFF0000#32 := by
  rw [show ~~~0xFFFF0000#32 = (BitVec.allOnes 16).setWidth 32 by decide]
  ext i hi
  simp only [BitVec.getElem_setWidth, BitVec.getLsbD_setWidth, BitVec.getElem_and,
    BitVec.getLsbD_allOnes, BitVec.getLsbD_eq_getElem hi, Bool.and_comm]

theorem lowHalf_and_mask (v : Word) : (v &&& ~~~0xFFFF0000#32).setWidth 16 = v.setWidth 16 := by
  rw [← setWidth_lowHalf, BitVec.setWidth_setWidth_of_le _ (by decide), BitVec.setWidth_eq]

/-! A word and the mask of its reserved bits, field by field: in each field one of the two is 0. -/

theorem setWidth_and_highHalf (x : Half) : x.setWidth 32 &&& 0xFFFF0000#32 = 0 := by
  rw [show 0xFFFF0000#32 = BitVec.allOnes 16 ++ 0#16 by decide,
    BitVec.setWidth_eq_append (by decide)]
  exact BitVec.and_append.trans (by rw [BitVec.zero_and, BitVec.and_zero]; rfl)

theorem ctrlWord_reserved (c : Ctrl) : ctrlWord c &&& ~~~0x00001F07#32 = 0 := by
  rw [show ~~~0x00001F07#32 =
      BitVec.allOnes 19 ++ 0#5 ++ BitVec.allOnes 5 ++ 0#1 ++ 0#1 ++ 0#1 by decide,
    ctrlWord, BitVec.and_append]
  simp only [BitVec.and_append, BitVec.zero_and, BitVec.and_zero]
  rfl

theorem statusWord_reserved (x : Status) : statusWord x &&& ~~~0x001F0FF7#32 = 0 := by
  rw [show ~~~0x001F0FF7#32 =
      BitVec.allOnes 11 ++ 0#5 ++ BitVec.allOnes 4 ++ 0#1 ++ 0#1 ++ 0#1 ++
      0#1 ++ 0#4 ++ BitVec.allOnes 1 ++ 0#1 ++ 0#1 ++ 0#1 by decide,
    statusWord, BitVec.and_append]
  simp only [BitVec.and_append, BitVec.zero_and, BitVec.and_zero]
  rfl

theorem paramWord_reserved (s : State) : paramWord s &&& 0x0000FF00#32 = 0 := by
  rw [show 0x0000FF00#32 = 0#16 ++ BitVec.allOnes 8 ++ 0#8 by decide,
    paramWord, BitVec.and_append]
  simp only [BitVec.and_append, BitVec.zero_and, BitVec.and_zero]
  rfl

/-- Reserved bits read 0 in every state (20_memory.md R49). -/
theorem readReg_reserved (s : State) (r : Reg) : readReg s r &&& reservedBits r = 0 := by
  cases r with
  | ctrl => exact ctrlWord_reserved s.ctrl
  | status => exact statusWord_reserved s.status
  | param => exact paramWord_reserved s
  | inTag | inLen | outTag | outLen | bound | inBuf | outBuf => exact setWidth_and_highHalf _
  | cmd | flags | frameCnt | applied | cumul | reach => exact BitVec.and_zero

/-- A write stores nothing of the reserved bits of its word (20_memory.md R49). -/
theorem writeReg_and_not_reserved (s : State) (r : Reg) (v : Word) :
    writeReg s r (v &&& ~~~reservedBits r) = writeReg s r v := by
  cases r with
  | ctrl => simp only [writeReg, reservedBits, BitVec.not_not, ctrlOfWord_and_mask]
  | inTag | inLen | bound | inBuf => simp only [writeReg, reservedBits, lowHalf_and_mask]
  | flags => exact congrArg s.setFlags BitVec.and_allOnes
  | _ => rfl

/-! ### What a read gives after each update -/

@[simp] theorem readReg_answer (s : State) (x : Response) (r : Reg) :
    readReg (s.answer x) r = readReg s r := by
  cases r <;> rfl

@[simp] theorem readReg_setPending (s : State) (p : List Input) (r : Reg) :
    readReg (s.setPending p) r = readReg s r := by
  cases r <;> rfl

theorem readReg_setCtrl (s : State) (c : Ctrl) {r : Reg} (h : r ≠ .ctrl) :
    readReg (s.setCtrl c) r = readReg s r := by
  cases r with
  | ctrl => exact absurd rfl h
  | _ => rfl

theorem readReg_setInTag (s : State) (v : Half) {r : Reg} (h : r ≠ .inTag) :
    readReg (s.setInTag v) r = readReg s r := by
  cases r with
  | inTag => exact absurd rfl h
  | _ => rfl

theorem readReg_setInLen (s : State) (v : Half) {r : Reg} (h : r ≠ .inLen) :
    readReg (s.setInLen v) r = readReg s r := by
  cases r with
  | inLen => exact absurd rfl h
  | _ => rfl

theorem readReg_setFlags (s : State) (v : Word) {r : Reg} (h : r ≠ .flags) :
    readReg (s.setFlags v) r = readReg s r := by
  cases r with
  | flags => exact absurd rfl h
  | _ => rfl

theorem readReg_setBound (s : State) (i : Fin 32) (v : Half) {r : Reg} (h : r ≠ .bound i) :
    readReg (s.setBound i v) r = readReg s r := by
  cases r with
  | bound k =>
    have hk : i.val ≠ k.val := fun hik => h (congrArg Reg.bound (Fin.ext hik.symm))
    simp only [readReg, up_setBound, if_neg hk]
  | _ => rfl

theorem readReg_setInElem (s : State) (j : Nat) (v : Elem) {r : Reg} (h : r ≠ .inBuf j) :
    readReg (s.setInElem j v) r = readReg s r := by
  cases r with
  | inBuf k =>
    have hk : j ≠ k := fun hjk => h (congrArg Reg.inBuf hjk.symm)
    simp only [readReg, inElem_setInElem, if_neg hk]
  | _ => rfl

/-- Clearing `CFG_VALID` shows in `STATUS` only. -/
theorem readReg_clearCfgValid (s : State) {r : Reg} (h : r ≠ .status) :
    readReg (clearCfgValid s) r = readReg s r := by
  cases r with
  | status => exact absurd rfl h
  | _ => rfl

/-- A writable register reads back the writable bits of the word written (20_memory.md R46). -/
theorem readReg_writeReg_same (s : State) {r : Reg} (v : Word)
    (h : r ∈ [Reg.ctrl, .inTag, .inLen, .flags] ∨ (∃ i, r = .bound i) ∨ ∃ j, r = .inBuf j) :
    readReg (writeReg s r v) r = v &&& ~~~(reservedBits r) := by
  cases r with
  | ctrl => exact (ctrlWord_ctrlOfWord v).trans (by rw [reservedBits, BitVec.not_not])
  | inTag | inLen => exact setWidth_lowHalf v
  | bound i =>
    have hup : up (writeReg s (.bound i) v) i.val = v.setWidth 16 :=
      (up_setBound s i _ i.val).trans (if_pos rfl)
    exact (congrArg _ hup).trans (setWidth_lowHalf v)
  | inBuf j =>
    have hin : inElem (writeReg s (.inBuf j) v) j = v.setWidth 16 :=
      (inElem_setInElem s j _ j).trans (if_pos rfl)
    exact (congrArg _ hin).trans (setWidth_lowHalf v)
  | flags => exact BitVec.and_allOnes.symm
  | _ => simp at h

/-- Every register but the one written and `STATUS` reads as before a write (20_memory.md R46). -/
theorem readReg_writeReg_other (s : State) {r r' : Reg} (v : Word) (hne : r' ≠ r)
    (hst : r' ≠ .status) : readReg (writeReg s r v) r' = readReg s r' := by
  cases r with
  | ctrl => exact (readReg_clearCfgValid _ hst).trans (readReg_setCtrl s _ hne)
  | bound i => exact (readReg_clearCfgValid _ hst).trans (readReg_setBound s i _ hne)
  | inTag => exact readReg_setInTag s _ hne
  | inLen => exact readReg_setInLen s _ hne
  | flags => exact readReg_setFlags s v hne
  | inBuf j => exact readReg_setInElem s j _ hne
  | _ => rfl

/-- Read-only registers ignore a write (20_memory.md R50). -/
theorem writeReg_readOnly (s : State) {r : Reg} (v : Word)
    (h : r ∈ [Reg.status, .param, .frameCnt, .outTag, .outLen, .applied, .cumul, .reach] ∨
      ∃ j, r = .outBuf j) : writeReg s r v = s := by
  cases r with
  | ctrl | inTag | inLen | flags | bound | inBuf => simp at h
  | _ => rfl

/-- A write leaves the host's list and the reset count alone (log entries 2 and 3). -/
theorem writeReg_host (s : State) (r : Reg) (v : Word) :
    (writeReg s r v).pending = s.pending ∧ (writeReg s r v).rstCount = s.rstCount := by
  cases r <;> exact ⟨rfl, rfl⟩

/-! ### Which accesses are legal -/

/-- The map gives an aligned offset a register exactly when it is mapped (20_memory.md R42). -/
theorem regAt_isSome {b n : Nat} (h : n % 4 = 0) : (regAt b n).isSome = true ↔ Mapped b n := by
  have hlow : (lowRegs[n / 4]?).isSome = true ↔ n / 4 < 13 := by simp [lowRegs]
  unfold regAt Mapped
  split
  · rw [hlow]; omega
  · repeat' split
    all_goals simp only [Option.isSome_none, Option.isSome_some, Bool.false_eq_true, true_iff,
      false_iff]; omega

/-- An access reaches a register exactly when it is 32 bits wide, aligned and mapped
(20_memory.md R47, R48). -/
theorem target_isSome {s : State} {width : Nat} {off : Offset} :
    (target s width off).isSome = true ↔ width = 32 ∧ Mapped s.bufBits.toNat off.toNat := by
  unfold target
  split
  · next h => rw [regAt_isSome h.2]; exact (and_iff_right h.1).symm
  · next h => exact iff_of_false (by simp) fun hm => h ⟨hm.1, hm.2.1⟩

theorem target_eq_none {s : State} {width : Nat} {off : Offset} :
    target s width off = none ↔ ¬(width = 32 ∧ Mapped s.bufBits.toNat off.toNat) := by
  rw [← target_isSome, Bool.not_eq_true, Option.isSome_eq_false_iff, Option.isNone_iff_eq_none]

/-- The offset of an input element (20_memory.md R43). -/
theorem target_inBuf {s : State} {j : Nat} (hj : j < s.bufBits.toNat) :
    target s 32 (BitVec.ofNat 20 (0x40000 + 4 * j)) = some (.inBuf j) := by
  have hcap := s.bufBits.isLt
  have hoff : (BitVec.ofNat 20 (0x40000 + 4 * j)).toNat = 0x40000 + 4 * j := by
    rw [BitVec.toNat_ofNat]; omega
  rw [target, hoff, if_pos ⟨rfl, by omega⟩, regAt, if_neg (by omega), if_neg (by omega),
    if_neg (by omega), if_neg (by omega), if_pos (by omega)]
  exact congrArg (fun k => some (Reg.inBuf k)) (by omega)

/-! ### The answer to each kind of access -/

theorem perform_busRead_mapped {s : State} {width : Nat} {off : Offset} {r : Reg}
    (h : target s width off = some r) :
    perform (.busRead width off) s = .next (s.answer (.data (readReg s r))) := by
  simp only [perform, busRead, h]

theorem perform_busRead_unmapped {s : State} {width : Nat} {off : Offset}
    (h : target s width off = none) :
    perform (.busRead width off) s = .next (s.answer (.busError off)) := by
  simp only [perform, busRead, h]

theorem perform_busWrite_mapped {s : State} {width : Nat} {off : Offset} {r : Reg} (v : Word)
    (h : target s width off = some r) (hr : r ≠ .cmd) :
    perform (.busWrite width off v) s = .next ((writeReg s r v).answer .written) := by
  simp only [perform, busWrite, h, if_neg hr]

theorem perform_busWrite_unmapped {s : State} {width : Nat} {off : Offset} (v : Word)
    (h : target s width off = none) :
    perform (.busWrite width off v) s = .next (s.answer (.busError off)) := by
  simp only [perform, busWrite, h]

/-- A write to `CMD` executes the command its word selects (20_memory.md R46). -/
theorem perform_busWrite_cmd {s : State} {width : Nat} {off : Offset} (v : Word)
    (h : target s width off = some .cmd) :
    ∃ t, command v s = .next t ∧ perform (.busWrite width off v) s = .next (t.answer .written) := by
  obtain ⟨rfl, rfl⟩ := target_cmd.1 h
  obtain ⟨t, ht⟩ := command_answers v s
  refine ⟨t, ht, (busWrite_cmd s v).trans ?_⟩
  rw [ht]; rfl

/-- Every write that reaches a register completes, whatever it does there. -/
theorem perform_busWrite_answers {s : State} {width : Nat} {off : Offset} {r : Reg} (v : Word)
    (h : target s width off = some r) :
    ∃ t : State, perform (.busWrite width off v) s = .next (t.answer .written) := by
  by_cases hr : r = .cmd
  · obtain ⟨t, -, ht⟩ := perform_busWrite_cmd v (hr ▸ h)
    exact ⟨t, ht⟩
  · exact ⟨_, perform_busWrite_mapped v h hr⟩

/-- The step whose next input is `i` performs it. -/
theorem step_of_pending {s : State} {i : Input} {rest : List Input} (h : s.pending = i :: rest) :
    step s = perform i (s.setPending rest) := by
  unfold step advance; rw [h]

/-- A step that performs a read takes the input off and answers, and does nothing else
(20_memory.md R45). -/
theorem step_of_busRead {s : State} {width : Nat} {off : Offset} {rest : List Input}
    (h : s.pending = .busRead width off :: rest) :
    step s = .next ((s.setPending rest).answer
      (((target s width off).map fun r => Response.data (readReg s r)).getD (.busError off))) := by
  rw [step_of_pending h]
  cases ht : target s width off with
  | none => exact perform_busRead_unmapped (s := s.setPending rest) ht
  | some r =>
    rw [perform_busRead_mapped (s := s.setPending rest) ht, readReg_setPending]; rfl

/-- `BOUND[i]` reads zero-extended. -/
theorem readReg_bound (s : State) (i : Fin 32) :
    readReg s (.bound i) = s.bound[i].setWidth 32 := by
  simp [readReg, up]

/-! ### The statements -/

/-- Settles O46: an access is answered by the register it reaches, and it reaches one exactly when it
is legal. -/
theorem busErrorsChangeNothing : Obligations.BusErrorsChangeNothing := by
  refine fun s width off v => ⟨fun h => ?_, fun h => ?_⟩
  · have hnone := target_eq_none.2 h
    exact ⟨perform_busRead_unmapped hnone, perform_busWrite_unmapped v hnone⟩
  · obtain ⟨r, hr⟩ := Option.isSome_iff_exists.1 (target_isSome.2 h)
    exact ⟨⟨_, perform_busRead_mapped hr⟩, perform_busWrite_answers v hr⟩

/-- Settles O48: what each register reads as after a register write. -/
theorem writesReachOnlyTheirRegister : Obligations.WritesReachOnlyTheirRegister := by
  refine fun s width off v => ⟨perform_busWrite_unmapped v, perform_busWrite_cmd v,
    fun r hr hcmd => ⟨_, perform_busWrite_mapped v hr hcmd, rfl, fun hw => ?_,
      fun r' hne hst _ => ?_, writeReg_status_config s v, fun hc hb => ?_, writeReg_host s r v⟩⟩
  · rw [readReg_answer, readReg_writeReg_same s v hw]
  · rw [readReg_answer, readReg_writeReg_other s v hne hst]
  · exact writeReg_status_other s v fun h => h.elim hc fun ⟨i, hi⟩ => hb i hi

/-- Settles O49: a write to a read-only register only answers. -/
theorem readOnlyRegistersIgnoreWrites : Obligations.ReadOnlyRegistersIgnoreWrites := by
  refine ⟨fun s off v r hr hro => ?_,
    fun s => perform_busRead_mapped (target_cmd.2 ⟨rfl, rfl⟩)⟩
  have hcmd : r ≠ .cmd := by rintro rfl; simp at hro
  rw [perform_busWrite_mapped v hr hcmd, writeReg_readOnly s v hro]

/-- Settles O51: a write of `v` is a write of `v` without its reserved bits. -/
theorem reservedBitsReadZero : Obligations.ReservedBitsReadZero := by
  refine fun s r => ⟨readReg_reserved s r, fun v w h => ?_⟩
  calc writeReg s r v = writeReg s r (v &&& ~~~reservedBits r) :=
        (writeReg_and_not_reserved s r v).symm
    _ = writeReg s r (w &&& ~~~reservedBits r) := by rw [h]
    _ = writeReg s r w := writeReg_and_not_reserved s r w

/-- Settles O52: an access at the offset of an input element reaches that element. -/
theorem inputElementsReadBack : Obligations.InputElementsReadBack := by
  refine fun s j v hj => ⟨_, perform_busWrite_mapped v (target_inBuf hj) Reg.noConfusion,
    fun k => ?_, perform_busRead_mapped (target_inBuf hj), rfl⟩
  simp only [eq_comm (a := k)]
  exact inElem_setInElem s j _ k

/-- Settles O47: the step of a read, and the value of each register. -/
theorem readsNeverChangeState : Obligations.ReadsNeverChangeState := by
  refine ⟨fun s width off rest h => ⟨_, step_of_busRead h, ?_⟩, fun s =>
    ⟨⟨rfl, rfl, rfl, readReg_param s⟩, ⟨rfl, rfl, rfl, rfl, readReg_bound s⟩, ⟨rfl, rfl⟩,
      fun _ _ => ⟨rfl, rfl, rfl⟩, fun _ => ⟨rfl, rfl⟩⟩⟩
  cases target s width off with
  | none => rfl
  | some r => exact ⟨rfl, readReg_reserved s r⟩

end Sys2Proof.Machine

namespace Sys2Proof.Machine

/-! ## Encoding family: the command decoder and the tag vocabularies (30_encoding.md R63, R71) -/

/-- The decoder selects a command exactly for that command's own word (30_encoding.md R71). -/
theorem toOption_decode_eq_some {w : Word} {i : Instr} :
    (decode w).toOption = some i ↔ w = encode i := by
  rw [← decode_eq_ok]
  cases decode w with
  | ok j => rw [Except.ok.injEq]; exact Option.some_inj
  | error e => exact iff_of_false nofun nofun

/-- The decoder selects nothing exactly for the words no command encodes to (30_encoding.md R72). -/
theorem toOption_decode_eq_none {w : Word} :
    (decode w).toOption = none ↔ ∀ i, w ≠ encode i := by
  simp only [Option.eq_none_iff_forall_ne_some, ne_eq, toOption_decode_eq_some]

/-- Settles O1: the word of each command selects it, and a word that is none of the four selects
nothing. -/
theorem decoderMatchesOpcodeMap : Obligations.DecoderMatchesOpcodeMap := by
  intro w
  split_ifs with hnop hcommit hprocess hreset
  · exact toOption_decode_eq_some.2 hnop
  · exact toOption_decode_eq_some.2 hcommit
  · exact toOption_decode_eq_some.2 hprocess
  · exact toOption_decode_eq_some.2 hreset
  · exact toOption_decode_eq_none.2 (ne_encode.2 ⟨hnop, hcommit, hprocess, hreset⟩)

/-- A frame is sanitized exactly when its tag is INVALID (41_engine.md R98). -/
theorem sanitized_iff_inputTag {s : State} : sanitized s = true ↔ inputTag s = none :=
  Option.isNone_iff_eq_none

/-- A sanitized frame is taken as FER (41_engine.md R98). -/
theorem tag0_of_sanitized {s : State} (h : sanitized s = true) : tag0 s = .fer := by
  rw [tag0, sanitized_iff_inputTag.1 h, Option.getD_none]

/-- A sanitized frame is taken as having no payload (41_engine.md R98). -/
theorem frameLen_of_sanitized {s : State} (h : sanitized s = true) : frameLen s = 0 :=
  if_pos h

/-- Settles O4: the two functions are their tables, the decoder finds the words the encoder makes,
and an INVALID tag sanitizes the frame. -/
theorem tagVocabularies : Obligations.TagVocabularies := by
  refine ⟨fun _ => rfl, fun _ => rfl, rfl, rfl, rfl, rfl, fun _ _ => decodeTag_eq_some.2 rfl,
    fun s hinvalid => ?_⟩
  have hsan : sanitized s = true := sanitized_iff_inputTag.2 hinvalid
  exact ⟨tag0_of_sanitized hsan, frameLen_of_sanitized hsan, hsan⟩

end Sys2Proof.Machine

namespace Sys2Proof.Machine

/-! ## Control family: what a write to `CMD`, a configuration write and a reset do (40_control.md)

Which command a word runs and what the fatal lock lets through, the checks of COMMIT one by one, the
layout of `CTRL`, and the two resets. The statements are assembled from these. -/

/-! ### Commands and the lock -/

/-- The step of a command that answers `u` is `u` with the write answered (20_memory.md R55). -/
theorem step_of_command_next {s u : State} {w : Word} {rest : List Input}
    (hp : s.pending = .busWrite 32 cmdOffset w :: rest)
    (hu : command w (s.setPending rest) = .next u) : step s = .next (u.answer .written) := by
  rw [step_of_command hp, hu]; rfl

/-- The word of a command runs that command (40_control.md R81). -/
theorem exec_of_command {i : Instr} {w : Word} {s t : State} (hw : w = encode i)
    (h : command w s = .next t) : exec i s = .next t := by
  rwa [hw, command_encode] at h

/-- Without the lock a word that is no command is rejected (40_control.md R87). -/
theorem command_illegal_free {s : State} {w : Word} (hf : s.status.fatal = false)
    (hw : ∀ i, w ≠ encode i) : command w s = .next (raiseReject .illegalCmd s) := by
  rw [command_illegal hw]
  exact unlessLocked_free hf _

/-- Under the fatal lock every command but SOFT_RESET is refused (60_exceptions.md R133). -/
theorem exec_of_locked {s : State} {i : Instr} (hf : s.status.fatal = true)
    (hi : i ≠ .softReset) : exec i s = .next s := by
  cases i with
  | nop => exact exec_nop s
  | commit => exact exec_commit_locked hf
  | process => exact exec_process_locked hf
  | softReset => exact absurd rfl hi

/-- A word with a reserved opcode or a nonzero `MBZ` field is no command (30_encoding.md R72). -/
theorem ne_encode_of_reserved {w : Word} (hw : 4 ≤ w.toNat ∨ w = 3#32) (hF : w ≠ 0x0000000F#32) :
    ∀ i, w ≠ encode i := by
  refine ne_encode.2 ⟨?_, ?_, ?_, hF⟩
  all_goals
    rintro rfl
    revert hw
    decide

/-! ### The checks of COMMIT -/

/-- The three checks in their order (40_control.md R84). -/
theorem topologyError_eq (s : State) : topologyError s =
    if up s 0 = 0 then some .cfgBoundZero
    else if ∃ i, i < layers s ∧ 1 ≤ i ∧ up s i ≤ up s (i - 1) then some .cfgBoundOrder
    else if s.bufBits < up s (layers s - 1) then some .cfgBoundCap
    else none := by
  simp only [topologyError, boundOrderFails_iff]

/-- COMMIT of a topology that fails a check. -/
theorem commitState_fails {s : State} {e : ErrCode} (h : topologyError s = some e) :
    commitState s = s.setStatus
      { s.status with cfgValid := false, done := false, fatal := true, err := e } := by
  unfold commitState; rw [h]; rfl

/-- COMMIT of a topology that passes the checks. -/
theorem commitState_passes {s : State} (h : topologyError s = none) :
    commitState s = s.setStatus { s.status with cfgValid := true, done := false, err := .ok } := by
  unfold commitState; rw [h]; rfl

/-- In a legal topology the boundaries grow by at least one a layer. -/
theorem succ_le_up {s : State} (h : TopologyLegal s) {i : Nat} (hi : i < layers s) :
    i + 1 ≤ (up s i).toNat := by
  induction i with
  | zero => exact up_pos h hi
  | succ i ih =>
    have hprev := ih (by omega)
    have hstep : (up s i).toNat < (up s (i + 1)).toNat :=
      BitVec.lt_def.1 (up_strict h (Nat.lt_succ_self i) hi)
    omega

/-- In a legal topology every layer lies inside the buffers. -/
theorem up_le_bufBits {s : State} (h : TopologyLegal s) {i : Nat} (hi : i < layers s) :
    up s i ≤ s.bufBits := by
  obtain ⟨-, -, hcap⟩ := id h
  exact BitVec.le_trans (up_mono h (by omega) (by omega)) hcap

/-! ### Configuration writes -/

theorem target_ctrl (s : State) : target s 32 0x00000#20 = some .ctrl := rfl

/-- The offset of a boundary (20_memory.md R42). -/
theorem target_bound (s : State) (i : Fin 32) :
    target s 32 (BitVec.ofNat 20 (0x00080 + 4 * i.val)) = some (.bound i) := by
  have hoff : (BitVec.ofNat 20 (0x00080 + 4 * i.val)).toNat = 0x00080 + 4 * i.val := by
    rw [BitVec.toNat_ofNat]; omega
  rw [target, hoff, if_pos ⟨rfl, by omega⟩, regAt, if_neg (by omega), if_neg (by omega),
    if_pos (by omega)]
  refine congrArg (fun k => some (Reg.bound k)) (Fin.ext ?_)
  rw [Fin.val_ofNat]; omega

theorem modeBit_eq (m : Mode) : modeBit m = decide (m = .individual) := by cases m <;> rfl

theorem formatBit_eq (f : Format) : formatBit f = decide (f = .byte) := by cases f <;> rfl

/-- Where a read of `CTRL` shows its fields (10_state.md R14). -/
theorem ctrlWord_fields (c : Ctrl) :
    (ctrlWord c).getLsbD 0 = decide (c.mode = .individual) ∧
    (ctrlWord c).getLsbD 1 = decide (c.ifmt = .byte) ∧
    (ctrlWord c).getLsbD 2 = decide (c.ofmt = .byte) ∧ (ctrlWord c).extractLsb' 8 5 = c.nm1 := by
  rw [← modeBit_eq, ← formatBit_eq, ← formatBit_eq]
  simp only [ctrlWord, BitVec.getLsbD_append]
  refine ⟨by simp, by simp, by simp, ?_⟩
  iterate 4 rw [BitVec.extractLsb'_append_eq_of_le (by decide)]
  exact BitVec.extractLsb'_append_eq_right

/-- `BOUND` after a write to one of its elements. -/
theorem getElem_bound_setBound (s : State) (i k : Fin 32) (v : Half) :
    (s.setBound i v).bound[k] = if k = i then v else s.bound[k] := by
  simp only [State.setBound_bound, Fin.getElem_fin, Vector.getElem_set, Fin.ext_iff,
    eq_comm (a := k.val)]

/-! ### The resets -/

/-- The full reset table of 70_reset_and_hazards.md R144 after `RST`, which differs from SOFT_RESET
only in `IN_BUF` and the model's own fields. -/
theorem readsAsReset_hardReset (s : State) : ReadsAsReset s.bufBits (hardReset s) :=
  readsAsReset_resetRegs s

/-! ### The statements -/

/-- Settles O6: the write answers what the command of its word answers, and under the lock only the
word of SOFT_RESET does anything. -/
theorem dispatchOfCommandWords : Obligations.DispatchOfCommandWords := by
  refine fun s w rest hp => ⟨fun ⟨hf, hw⟩ => ?_, fun hfree => ?_⟩
  · exact step_of_command_next hp (command_of_locked hf hw)
  · obtain ⟨t, ht⟩ := command_answers w (s.setPending rest)
    refine ⟨t, step_of_command_next hp ht, ?_⟩
    split_ifs with hnop hcommit hprocess hreset
    · exact exec_of_command hnop ht
    · exact exec_of_command hcommit ht
    · exact exec_of_command hprocess ht
    · exact exec_of_command hreset ht
    · have hf : s.status.fatal = false := Bool.eq_false_iff.2 fun hf => hfree ⟨hf, hreset⟩
      have hw : ∀ i, w ≠ encode i := ne_encode.2 ⟨hnop, hcommit, hprocess, hreset⟩
      exact Host.Outcome.next.inj (ht.symm.trans (command_illegal_free hf hw))

/-- Settles O8: the word of NOP runs NOP, which answers the state it finds. -/
theorem nopChangesNothing : Obligations.NopChangesNothing := fun s =>
  ⟨exec_nop s, fun _ hp => step_of_command_next hp ((command_encode .nop _).trans (exec_nop _))⟩

/-- Settles O9: one case for each check of COMMIT, and the bounds by the strict order of a legal
topology. -/
theorem commitValidatesTheTopology : Obligations.CommitValidatesTheTopology := by
  refine ⟨fun s hf => ?_, fun s i h hi => ⟨succ_le_up h hi, up_le_bufBits h hi⟩⟩
  refine (exec_commit_free hf).trans (congrArg _ ?_)
  have herr := topologyError_eq s
  split_ifs at herr ⊢ with hzero horder hcap
  · exact commitState_fails herr
  · exact commitState_fails herr
  · exact commitState_fails herr
  · exact commitState_passes herr

/-- Settles O12: a reserved word is no command, so it is rejected, or refused under the lock. -/
theorem illegalWordsAreRejected : Obligations.IllegalWordsAreRejected := fun _ _ hw hF =>
  ⟨fun hf => command_illegal_free hf (ne_encode_of_reserved hw hF),
    fun hf => command_of_locked hf hF⟩

/-- Settles O50: the offsets reach `CTRL` and `BOUND[i]`, whose writes store their bits and clear
`CFG_VALID`. -/
theorem configurationWritesClearCfgValid : Obligations.ConfigurationWritesClearCfgValid := by
  refine ⟨fun s v => ?_,
    ⟨ctrlWord_fields, fun v => ⟨ctrlWord_ctrlOfWord v, rfl, rfl, rfl, rfl⟩⟩,
    fun s i v => ⟨(s.setBound i (v.setWidth 16)).bound, ?_,
      fun k => getElem_bound_setBound s i k _⟩⟩
  · exact perform_busWrite_mapped v (target_ctrl s) Reg.noConfusion
  · exact perform_busWrite_mapped v (target_bound s i) Reg.noConfusion

/-- Settles O55: the reset table after each of the two resets, and the lock. -/
theorem bothResetsLeaveTheResetValues : Obligations.BothResetsLeaveTheResetValues := by
  refine ⟨fun s => ⟨fun rest hp => ?_, ?_⟩, fun _ _ => exec_of_locked⟩
  · exact ⟨_, step_of_rst hp, readsAsReset_hardReset (s.setPending rest), rfl⟩
  · exact ⟨_, exec_softReset s, readsAsReset_resetRegs s, fun _ => rfl, rfl, rfl, rfl, rfl⟩

end Sys2Proof.Machine

namespace Sys2Proof.Machine

/-! ## Engine family: the stages of PROCESS and what it writes back (41_engine.md R97 to R117)

What a completed PROCESS stores in each register, which state the engine looks at, where truncation
happens in each mode, and what is left of each layer. The statements are assembled from these. -/

/-! ### What a PROCESS that completes answers -/

/-- A PROCESS that completes answers the write-back of its stages (41_engine.md R116). -/
theorem eq_writeBack {s t : State} (hc : CanProcess s) (h : exec .process s = .next t) :
    t = writeBack s := by
  rw [exec_process_completes hc] at h
  cases h; rfl

/-- A lane of an attribution vector is set exactly for a layer in use that has the property. -/
theorem getLsbD_packLanes_layers (s : State) (p : Nat → Bool) (i : Nat) :
    (packLanes p (layers s)).getLsbD i = (decide (i < layers s) && p i) :=
  getLsbD_packLanes p (layers_le s) i

theorem getLsbD_packLanes_layers_iff {s : State} {p : Nat → Bool} {i : Nat} :
    (packLanes p (layers s)).getLsbD i = true ↔ i < layers s ∧ p i = true := by
  rw [getLsbD_packLanes_layers, Bool.and_eq_true, decide_eq_true_eq]

/-- `OUT_BUF` inside the capacity is the payload of the engine (41_engine.md R113). -/
theorem outElem_writeBack_of_lt {s : State} {j : Nat} (hj : j < s.bufBits.toNat) :
    outElem (writeBack s) j = payloadOut s j :=
  (outElem_writeBack s j).trans (if_pos hj)

/-- `FIRST_TRUNC` holds the first truncated layer, and 0 without a truncation. -/
theorem writeBack_firstTrunc_toNat (s : State) :
    (writeBack s).status.firstTrunc.toNat = (firstTrunc s).getD 0 := by
  cases ht : firstTrunc s with
  | none => simp [statusProcessed, ht]
  | some k => exact writeBack_firstTrunc ht

/-- `TRUNC` without a truncation. -/
theorem writeBack_trunc_none {s : State} (h : firstTrunc s = none) :
    (writeBack s).status.trunc = false :=
  Option.isSome_eq_false_iff.2 (Option.isNone_iff_eq_none.2 h)

/-! ### What the engine looks at

`SameView s t` says that the engine sees the same frame in both states: the stages read `FLAGS` only
through `erased` and `intact`, and `IN_BUF` only through the overlay. -/

/-- The configuration, the frame header, the erasures and the overlay are the same. -/
structure SameView (s t : State) : Prop where
  bufBits : t.bufBits = s.bufBits
  ctrl : t.ctrl = s.ctrl
  bound : t.bound = s.bound
  inTag : t.inTag = s.inTag
  inLen : t.inLen = s.inLen
  erased : erased t = erased s
  intact : intact t = intact s
  overlay : overlay t = overlay s

namespace SameView

variable {s t : State}

theorem layers (h : SameView s t) : layers t = layers s := by
  unfold Machine.layers; rw [h.ctrl]

theorem up (h : SameView s t) : up t = up s := by
  unfold Machine.up; rw [h.bound]

theorem lo (h : SameView s t) : lo t = lo s := by
  funext i
  cases i with
  | zero => rfl
  | succ i => rw [lo_succ, lo_succ, h.up]

theorem inputTag (h : SameView s t) : inputTag t = inputTag s := by
  unfold Machine.inputTag; rw [h.inTag, h.ctrl]

theorem sanitized (h : SameView s t) : sanitized t = sanitized s := by
  unfold Machine.sanitized; rw [h.inputTag]

theorem tag0 (h : SameView s t) : tag0 t = tag0 s := by
  unfold Machine.tag0; rw [h.inputTag]

theorem frameLen (h : SameView s t) : frameLen t = frameLen s := by
  unfold Machine.frameLen; rw [h.sanitized, h.inLen]

theorem reached (h : SameView s t) : reached t = reached s := by
  unfold Machine.reached; rw [h.frameLen, h.layers, h.up]

theorem tag1 (h : SameView s t) : tag1 t = tag1 s := by
  unfold Machine.tag1; rw [h.layers, h.erased, h.tag0]

theorem truncLayered (h : SameView s t) : truncLayered t = truncLayered s := by
  unfold Machine.truncLayered; rw [h.layers, h.erased]

theorem truncIndividual (h : SameView s t) : truncIndividual t = truncIndividual s := by
  unfold Machine.truncIndividual Machine.topReached
  rw [h.layers, h.reached, h.frameLen, h.erased]

theorem firstTrunc (h : SameView s t) : firstTrunc t = firstTrunc s := by
  unfold Machine.firstTrunc; rw [h.ctrl, h.truncLayered, h.truncIndividual]

theorem outputLen (h : SameView s t) : outputLen t = outputLen s := by
  unfold Machine.outputLen; rw [h.firstTrunc, h.lo, h.frameLen]

theorem newlyApplied (h : SameView s t) : newlyApplied t = newlyApplied s := by
  unfold Machine.newlyApplied Machine.aboveTrunc; rw [h.erased, h.firstTrunc, h.intact]

theorem tagOut (h : SameView s t) : tagOut t = tagOut s := by
  unfold Machine.tagOut; rw [h.outputLen, h.tag1, h.overlay]

theorem outputBuf (h : SameView s t) : outputBuf t = outputBuf s := by
  unfold Machine.outputBuf Machine.payloadOut; rw [h.outputLen, h.overlay, h.bufBits]

theorem nodataOut (h : SameView s t) : nodataOut t = nodataOut s := by
  unfold Machine.nodataOut; rw [h.tagOut, h.outputLen]

theorem cumulative (h : SameView s t) : cumulative t = cumulative s := by
  unfold Machine.cumulative Machine.layerBlank
  rw [h.nodataOut, h.outputLen, h.up, h.lo, h.tagOut, h.overlay]

/-- The write-back of a state the engine sees as `s` stores the stages of `s`. -/
theorem writeBack (h : SameView s t) : writeBack t = { t with
    outTag := encodeTag (Machine.tagOut s) s.ctrl.ofmt
    outLen := Machine.outputLen s
    outBuf := Machine.outputBuf s
    applied := packLanes (Machine.newlyApplied s) (Machine.layers s)
    cumul := packLanes (Machine.cumulative s) (Machine.layers s)
    reach := packLanes (Machine.reached s) (Machine.layers s)
    status := statusProcessed t.status (Machine.sanitized s)
      (decide (Machine.tag0 s = .sync ∧ Machine.frameLen s = 0)) (Machine.nodataOut s)
      (Machine.firstTrunc s)
    frameCnt := t.frameCnt + 1 } := by
  unfold Machine.writeBack
  rw [h.tagOut, h.ctrl, h.outputLen, h.outputBuf, h.newlyApplied, h.cumulative, h.reached,
    h.layers, h.sanitized, h.tag0, h.frameLen, h.nodataOut, h.firstTrunc]

end SameView

/-- The write-back stores nothing the engine looks at. -/
theorem sameView_writeBack (s : State) : SameView s (writeBack s) :=
  ⟨rfl, rfl, rfl, rfl, rfl, rfl, rfl, rfl⟩

/-- A second write-back only counts the frame (41_engine.md R117). -/
theorem writeBack_writeBack (s : State) :
    writeBack (writeBack s) = { writeBack s with frameCnt := (writeBack s).frameCnt + 1 } :=
  (sameView_writeBack s).writeBack

/-- A PROCESS that completes leaves a state in which the next one completes too. -/
theorem canProcess_writeBack {s : State} (h : CanProcess s) : CanProcess (writeBack s) := h

/-- PROCESS writes no configuration, no input and none of the model's own fields. -/
theorem exec_process_keeps {s t : State} (h : exec .process s = .next t) :
    SameInputs s t ∧ SameHost s t := by
  rcases exec_process_cases h with ⟨-, rfl⟩ | ⟨-, -, rfl⟩ | ⟨-, -, -, rfl⟩ | ⟨-, rfl⟩ <;>
    exact ⟨⟨rfl, rfl, rfl, rfl, rfl, rfl, fun _ => rfl⟩, rfl, rfl, rfl⟩

/-- The engine sees the same frame for two flag vectors that agree on the reached layers
(41_engine.md R102). -/
theorem sameView_setFlags {s : State} {f : Word}
    (hf : ∀ i, reached s i = true → f.getLsbD i = s.flags.getLsbD i) :
    SameView s (s.setFlags f) := by
  have hflag : ∀ i, reached s i = true → flag (s.setFlags f) i = flag s i := hf
  have herased : erased (s.setFlags f) = erased s := by
    funext i
    rw [Bool.eq_iff_iff, erased_iff, erased_iff]
    exact and_congr_right fun hr => by rw [hflag i hr]
  have hintact : intact (s.setFlags f) = intact s := by
    funext i
    rw [Bool.eq_iff_iff, intact_iff, intact_iff]
    exact and_congr_right fun hr => by rw [hflag i hr]
  have hoverlay : overlay (s.setFlags f) = overlay s := by
    unfold overlay; rw [hintact]; rfl
  exact ⟨rfl, rfl, rfl, rfl, rfl, herased, hintact, hoverlay⟩

/-- PROCESS answers the same for two flag vectors that the engine sees alike. -/
theorem exec_process_setFlags {s : State} {f : Word} (h : SameView s (s.setFlags f)) :
    ∃ t, exec .process s = .next t ∧ exec .process (s.setFlags f) = .next (t.setFlags f) := by
  obtain ⟨t, ht⟩ := exec_answers .process s
  refine ⟨t, ht, ?_⟩
  rcases exec_process_cases ht with ⟨hf, rfl⟩ | ⟨hf, hc, rfl⟩ | ⟨hf, hc, hl, rfl⟩ | ⟨hp, rfl⟩
  · exact exec_process_locked hf
  · exact exec_process_guard hf hc
  · exact exec_process_misaligned hf hc hl
  · exact (exec_process_completes (s := s.setFlags f) hp).trans (congrArg _ h.writeBack)

/-! ### Truncation -/

theorem firstTrunc_layered {s : State} (h : s.ctrl.mode = .layered) :
    firstTrunc s = truncLayered s := by
  unfold firstTrunc; rw [h]

theorem firstTrunc_individual {s : State} (h : s.ctrl.mode = .individual) :
    firstTrunc s = truncIndividual s := by
  unfold firstTrunc; rw [h]

/-- In a legal topology a frame without payload reaches no layer (41_engine.md R101). -/
theorem reached_of_empty {s : State} (h : TopologyLegal s) (h0 : frameLen s = 0) (i : Nat) :
    reached s i = false := by
  refine Bool.eq_false_iff.2 fun hr => ?_
  obtain ⟨hi, hle⟩ := reached_iff.1 hr
  have hpos := up_pos h hi
  have hlen : (frameLen s).toNat = 0 := congrArg BitVec.toNat h0
  rw [BitVec.le_def] at hle
  omega

theorem erased_of_empty {s : State} (h : TopologyLegal s) (h0 : frameLen s = 0) (i : Nat) :
    erased s i = false :=
  Bool.eq_false_iff.2 fun he =>
    Bool.eq_false_iff.1 (reached_of_empty h h0 i) (erased_iff.1 he).1

/-- What the truncation of layer `a` shows in the outputs (41_engine.md R106, R108). -/
theorem writeBack_of_firstTrunc {s : State} {a : Nat} (h : firstTrunc s = some a) :
    firstTrunc s = some a ∧ (writeBack s).outLen = lo s a ∧ (writeBack s).status.trunc = true :=
  ⟨h, outputLen_some h, writeBack_trunc_iff.2 ⟨a, h⟩⟩

/-- What a frame that is not truncated shows in the outputs. -/
theorem writeBack_of_no_trunc {s : State} (h : firstTrunc s = none) :
    (writeBack s).outLen = frameLen s ∧ (writeBack s).status.trunc = false :=
  ⟨outputLen_none h, writeBack_trunc_none h⟩

/-- INDIVIDUAL truncates the run of erased layers `a` to `k` at the top, where the run starts at 0
or above a layer that is not erased (41_engine.md R108). -/
theorem truncIndividual_of_run {s : State} {k a : Nat} (h0 : frameLen s ≠ 0)
    (hk : topReached s = some k) (hak : a ≤ k) (hrun : ∀ m, a ≤ m → m ≤ k → erased s m = true)
    (hstart : ∀ b, a = b + 1 → erased s b = false) : truncIndividual s = some a := by
  refine truncIndividual_eq_some.2 ⟨h0, k, hk, hak, hrun, fun i hi => ?_⟩
  obtain ⟨b, rfl⟩ : ∃ b, a = b + 1 := ⟨a - 1, by omega⟩
  exact ⟨b, by omega, by omega, hstart b rfl⟩

/-- INDIVIDUAL truncates nothing when the frame is empty or its highest reached layer is not erased
(41_engine.md R108). -/
theorem truncIndividual_eq_none {s : State}
    (h : frameLen s = 0 ∨ ∃ k, topReached s = some k ∧ erased s k = false) :
    truncIndividual s = none := by
  refine Option.eq_none_iff_forall_ne_some.2 fun a ha => ?_
  obtain ⟨h0, k, hk, hak, hrun, -⟩ := truncIndividual_eq_some.1 ha
  rcases h with he | ⟨k', hk', hne⟩
  · exact h0 he
  · obtain rfl : k = k' := Option.some.inj (hk.symm.trans hk')
    exact Bool.eq_false_iff.1 hne (hrun k hak le_rfl)

/-! ### Layers and the retained payload -/

/-- The `N` layers leave no gap below the highest boundary. -/
theorem exists_layer_of_lt_up {s : State} {j k : Nat} (h : j < (up s k).toNat) :
    ∃ i, i ≤ k ∧ (lo s i).toNat ≤ j ∧ j < (up s i).toNat := by
  induction k with
  | zero => exact ⟨0, le_rfl, Nat.zero_le j, h⟩
  | succ k ih =>
    by_cases hj : j < (up s k).toNat
    · obtain ⟨i, hi, hin⟩ := ih hj
      exact ⟨i, by omega, hin⟩
    · exact ⟨k + 1, le_rfl, Nat.not_lt.1 hj, h⟩

/-- Every element of the sanitized frame lies in a reached layer. -/
theorem exists_reached_layer {s : State} (h : TopologyLegal s) (hl : LengthLegal s) {j : Nat}
    (hj : j < (frameLen s).toNat) :
    ∃ i, reached s i = true ∧ (lo s i).toNat ≤ j ∧ j < (up s i).toNat := by
  rcases hl with h0 | ⟨k, hk, hlen⟩
  · simp [h0] at hj
  · obtain ⟨i, hik, hin⟩ := exists_layer_of_lt_up (hlen ▸ hj)
    exact ⟨i, reached_iff.2 ⟨by omega, hlen ▸ up_mono h hik hk⟩, hin⟩

theorem lo_mono {s : State} (h : TopologyLegal s) {i j : Nat} (hij : i ≤ j) (hj : j < layers s) :
    (lo s i).toNat ≤ (lo s j).toNat := by
  rcases Nat.lt_or_eq_of_le hij with hlt | rfl
  · have hup := lo_lt_up h (Nat.lt_trans hlt hj)
    have hle := BitVec.le_def.1 (up_le_lo h hlt hj)
    omega
  · exact le_rfl

/-- LAYERED keeps no element of an erased layer (41_engine.md R106). -/
theorem outputLen_le_lo_of_layered {s : State} (h : TopologyLegal s)
    (hm : s.ctrl.mode = .layered) {i : Nat} (hi : erased s i = true) :
    (outputLen s).toNat ≤ (lo s i).toNat := by
  cases ht : truncLayered s with
  | none => exact absurd hi (Bool.eq_false_iff.1 (truncLayered_eq_none.1 ht i))
  | some t =>
    obtain ⟨-, hlow⟩ := truncLayered_eq_some.1 ht
    have hti : t ≤ i := Nat.not_lt.1 fun hit => Bool.eq_false_iff.1 (hlow i hit) hi
    rw [outputLen_some ((firstTrunc_layered hm).trans ht)]
    exact lo_mono h hti (erased_lt hi)

/-- A reached layer below the first truncated one is retained whole. -/
theorem up_le_outputLen {s : State} (h : TopologyLegal s) {i : Nat} (hi : reached s i = true)
    (hkept : ∀ a, firstTrunc s = some a → i < a) : up s i ≤ outputLen s := by
  cases ht : firstTrunc s with
  | none =>
    rw [outputLen_none ht]
    exact (reached_iff.1 hi).2
  | some a =>
    rw [outputLen_some ht]
    exact up_le_lo h (hkept a ht) (erased_lt (firstTrunc_erased ht))

theorem intact_of_erased {s : State} {i : Nat} (h : erased s i = true) : intact s i = false := by
  obtain ⟨-, hflag⟩ := erased_iff.1 h
  exact Bool.eq_false_iff.2 fun hi => Bool.eq_false_iff.1 (intact_iff.1 hi).2 hflag

/-- A reached layer is erased or intact (41_engine.md R102). -/
theorem erased_or_intact {s : State} {i : Nat} (h : reached s i = true) :
    erased s i = true ∨ intact s i = true := by
  rw [erased_iff, intact_iff]
  cases flag s i <;> simp [h]

/-- An erased layer is blank in the overlay (41_engine.md R104). -/
theorem overlay_of_erased {s : State} (h : TopologyLegal s) {i j : Nat} (hi : erased s i = true)
    (h1 : (lo s i).toNat ≤ j) (h2 : j < (up s i).toNat) : overlay s j = 0 := by
  rw [overlay_in_layer h (erased_lt hi) h1 h2, intact_of_erased hi, if_neg Bool.false_ne_true]

/-- Above the last layer the overlay keeps its seed (41_engine.md R104). -/
theorem overlay_above_layers {s : State} (h : TopologyLegal s) {j : Nat}
    (hj : (up s (layers s - 1)).toNat ≤ j) : overlay s j = 0 := by
  refine overlay_eq_zero fun i hi _ => ?_
  have hlt : i < layers s := reached_lt (intact_iff.1 hi).1
  have hle := BitVec.le_def.1 (up_mono h (show i ≤ layers s - 1 by omega) (by omega))
  omega

/-- A blank layer that is retained makes the frame FER (41_engine.md R108, R112). -/
theorem tagOut_of_kept_erased {s : State} (h : TopologyLegal s) {i : Nat}
    (hi : erased s i = true) (hkept : up s i ≤ outputLen s) : tagOut s = .fer := by
  have hlayer := lo_lt_up h (erased_lt hi)
  rw [BitVec.le_def] at hkept
  have hne : outputLen s ≠ 0 := by
    intro h0
    have hlen : (outputLen s).toNat = 0 := congrArg BitVec.toNat h0
    omega
  exact (tagOut_fer_iff hne).2 ⟨_, by omega, overlay_of_erased h hi le_rfl hlayer⟩

/-- A payload without a zero is SYNC (41_engine.md R112). -/
theorem tagOut_of_no_zero {s : State} (h0 : outputLen s ≠ 0)
    (h : ∀ j, j < (outputLen s).toNat → overlay s j ≠ 0) : tagOut s = .sync := by
  cases ht : tagOut s with
  | sync => rfl
  | fer =>
    obtain ⟨j, hj, hz⟩ := (tagOut_fer_iff h0).1 ht
    exact absurd hz (h j hj)

theorem tag1_of_erased {s : State} {i : Nat} (h : erased s i = true) : tag1 s = .fer := by
  rcases tag1_eq s with ⟨ht, -⟩ | ⟨-, hnone⟩
  · exact ht
  · exact absurd h (Bool.eq_false_iff.1 (hnone i))

theorem tag1_of_no_erased {s : State} (h : ∀ i, erased s i = false) : tag1 s = tag0 s := by
  rcases tag1_eq s with ⟨-, i, hi⟩ | ⟨ht, -⟩
  · exact absurd hi (Bool.eq_false_iff.1 (h i))
  · exact ht

/-- A zero that is retained lies in an erased layer that INDIVIDUAL keeps, or the input held it in an
intact layer (41_engine.md R112). -/
theorem retained_zero_origin {s : State} (h : TopologyLegal s) (hl : LengthLegal s) {j : Nat}
    (hj : j < (outputLen s).toNat) (hz : overlay s j = 0) :
    ∃ i, ((lo s i).toNat ≤ j ∧ j < (up s i).toNat) ∧
      ((s.ctrl.mode = .individual ∧ erased s i = true) ∨
        (intact s i = true ∧ inElem s j = 0)) := by
  have hlen := BitVec.le_def.1 (outputLen_le h)
  obtain ⟨i, hr, h1, h2⟩ := exists_reached_layer h hl (show j < (frameLen s).toNat by omega)
  refine ⟨i, ⟨h1, h2⟩, ?_⟩
  rcases erased_or_intact hr with he | hi
  · cases hm : s.ctrl.mode with
    | layered =>
      have hcut := outputLen_le_lo_of_layered h hm he
      omega
    | individual => exact .inl ⟨rfl, he⟩
  · rw [overlay_in_layer h (reached_lt hr) h1 h2, if_pos hi] at hz
    exact .inr ⟨hi, hz⟩

/-! ### The statements -/

/-- Settles O22: the guard is a non-fatal rejection. -/
theorem processNeedsValidConfiguration : Obligations.ProcessNeedsValidConfiguration :=
  fun _ => exec_process_guard

/-- Settles O23: a misaligned length raises the fatal error, a legal one writes back, and a sanitized
frame has length 0. -/
theorem processChecksTheLength : Obligations.ProcessChecksTheLength :=
  ⟨fun _ => exec_process_misaligned,
    fun _ hf hc hl => ⟨_, exec_process_completes ⟨hf, hc, hl⟩, rfl, hf⟩,
    fun _ hinvalid => frameLen_of_sanitized (sanitized_iff_inputTag.2 hinvalid)⟩

/-- Settles O24: the registers of the write-back. -/
theorem processWritesBackAllResults : Obligations.ProcessWritesBackAllResults := fun s hc =>
  ⟨writeBack s, exec_process_completes hc, rfl, rfl, fun _ => outElem_writeBack_of_lt,
    getLsbD_packLanes_layers s _, getLsbD_packLanes_layers s _, getLsbD_packLanes_layers s _,
    rfl, rfl, rfl, rfl, writeBack_firstTrunc_toNat s, rfl, rfl, rfl, rfl, rfl⟩

/-- Settles O25: the write-back stores nothing that the engine looks at. -/
theorem processKeepsItsInputs : Obligations.ProcessKeepsItsInputs := by
  refine ⟨fun _ _ => exec_process_keeps, fun s t hc h => ?_,
    fun s j v => ⟨rfl, rfl, fun _ => rfl, rfl, rfl, rfl, rfl⟩⟩
  obtain rfl := eq_writeBack hc h
  rw [exec_process_completes (canProcess_writeBack hc), writeBack_writeBack]

/-- Settles O29: the engine reads a flag only together with the reach of its layer. -/
theorem unreachedFlagsHaveNoEffect : Obligations.UnreachedFlagsHaveNoEffect :=
  ⟨fun _ _ => ⟨erased_iff, intact_iff⟩, fun _ _ hf => exec_process_setFlags (sameView_setFlags hf)⟩

/-- Settles O31: an element lies in one layer, or above all of them. -/
theorem overlayCopiesIntactLayers : Obligations.OverlayCopiesIntactLayers := fun _ h =>
  ⟨fun _ _ => overlay_in_layer h, fun _ => overlay_above_layers h⟩

/-- Settles O32: the first truncated layer is the lowest erased one. -/
theorem layeredTruncatesAtLowestErased : Obligations.LayeredTruncatesAtLowestErased := by
  intro s t hc hm h
  obtain rfl := eq_writeBack hc h
  have htrunc := firstTrunc_layered hm
  refine ⟨fun k hk hlow => ?_, fun hnone => ?_, fun hleg h0 => ?_⟩
  · exact writeBack_of_firstTrunc (htrunc.trans (truncLayered_eq_some.2 ⟨hk, hlow⟩))
  · exact writeBack_of_no_trunc (htrunc.trans (truncLayered_eq_none.2 hnone))
  · exact writeBack_trunc_none
      (htrunc.trans (truncLayered_eq_none.2 (erased_of_empty hleg h0)))

/-- Settles O34: an erased layer below the run stays and is blank; the run ends at the highest
reached layer. -/
theorem individualTruncatesTheTopRun : Obligations.IndividualTruncatesTheTopRun := by
  intro s t hc hm h
  obtain rfl := eq_writeBack hc h
  have htrunc := firstTrunc_individual hm
  refine ⟨fun hleg i hi hkept => ?_, fun k a h0 hk hak hrun hstart => ?_, fun hno => ?_⟩
  · have hup := up_le_outputLen hleg (erased_iff.1 hi).1 hkept
    exact ⟨hup, congrArg (encodeTag · _) (tagOut_of_kept_erased hleg hi hup),
      fun _ => overlay_of_erased hleg hi⟩
  · exact writeBack_of_firstTrunc
      (htrunc.trans (truncIndividual_of_run h0 (topReached_eq_some.2 hk) hak hrun hstart))
  · refine writeBack_of_no_trunc (htrunc.trans (truncIndividual_eq_none (hno.imp_right ?_)))
    exact fun ⟨k, hk, hne⟩ => ⟨k, topReached_eq_some.2 hk, hne⟩

/-- Settles O36, lane by lane. -/
theorem appliedIsErasureOrCascade : Obligations.AppliedIsErasureOrCascade := by
  intro s t hc h i
  obtain rfl := eq_writeBack hc h
  rw [writeBack_applied, getLsbD_packLanes_layers_iff, newlyApplied_iff]
  simp only [← exists_and_right, and_assoc]

/-- Settles O37: the four cases of the tag, and the origin of a retained zero. -/
theorem outputTagFollowsThePayload : Obligations.OutputTagFollowsThePayload := by
  intro s t hc h
  obtain rfl := eq_writeBack hc h
  obtain ⟨-, -, hlen⟩ := hc
  have htag : ∀ {u}, tagOut s = u → (writeBack s).outTag = encodeTag u s.ctrl.ofmt :=
    congrArg (encodeTag · _)
  refine ⟨fun h0 hz => htag ((tagOut_fer_iff h0).2 hz),
    fun h0 hnz => htag (tagOut_of_no_zero h0 hnz),
    fun h0 ⟨_, hi⟩ => htag ((tagOut_of_empty h0).trans (tag1_of_erased hi)),
    fun h0 hnone => htag ((tagOut_of_empty h0).trans (tag1_of_no_erased hnone)),
    fun hleg _ => retained_zero_origin hleg hlen⟩

/-- Settles O38: the payload of the engine is the overlay below the output length. -/
theorem outputBufferIsFullyRewritten : Obligations.OutputBufferIsFullyRewritten := by
  intro s t hc h j hj
  obtain rfl := eq_writeBack hc h
  exact outElem_writeBack_of_lt hj

/-- Settles O39, lane by lane. -/
theorem cumulativeAttribution : Obligations.CumulativeAttribution := by
  intro s t hc h i
  obtain rfl := eq_writeBack hc h
  rw [writeBack_cumul, getLsbD_packLanes_layers_iff, cumulative_iff, layerBlank_iff,
    writeBack_outLen, and_assoc (a := tagOut s = .fer)]

end Sys2Proof.Machine

namespace Sys2Proof.Machine

/-! ## Exceptions family: the fatal lock and the order of the checks (60_exceptions.md R133 to R136)

How the lock is left, that only a fatal code sets it, and which check of a command answers first. -/

/-! ### Setting and leaving the lock -/

/-- A command that ends with a code that is not fatal sets no lock (60_exceptions.md R132). -/
theorem exec_not_fatal {s t : State} {i : Instr} (h : exec i s = .next t)
    (hf : s.status.fatal = false) (he : errIsFatal t.status.err = false) :
    t.status.fatal = false := by
  cases i with
  | nop =>
    rw [exec_nop] at h
    cases h; exact hf
  | commit =>
    rcases exec_commit_cases h with ⟨-, rfl⟩ | ⟨e, -, htop, rfl⟩ | ⟨-, -, rfl⟩
    · exact hf
    · exact Bool.noConfusion ((topologyError_fatal htop).symm.trans he)
    · exact hf
  | process =>
    rcases exec_process_cases h with ⟨-, rfl⟩ | ⟨-, -, rfl⟩ | ⟨-, -, -, rfl⟩ | ⟨-, rfl⟩
    · exact hf
    · exact hf
    · exact Bool.noConfusion he
    · exact hf
  | softReset =>
    rw [exec_softReset] at h
    cases h; rfl

/-- No register write moves the lock (60_exceptions.md R133). -/
theorem writeReg_fatal (s : State) (r : Reg) (v : Word) :
    (writeReg s r v).status.fatal = s.status.fatal := by
  by_cases hr : r = .ctrl ∨ ∃ i, r = .bound i
  · rw [writeReg_status_config s v hr]
  · rw [writeReg_status_other s v hr]

/-- A step that leaves the lock is the hardware reset or the SOFT_RESET command (60_exceptions.md
R134). -/
theorem step_leaves_lock {s t : State} (h : step s = .next t) (hs : s.status.fatal = true)
    (ht : t.status.fatal = false) :
    ∃ rest, (s.pending = .rst :: rest ∧ t = hardReset (s.setPending rest)) ∨
      (s.pending = .busWrite 32 cmdOffset (encode .softReset) :: rest ∧
        t = (resetRegs (s.setPending rest)).answer .written) := by
  have hmoved : t.status.fatal ≠ s.status.fatal := by simp [hs, ht]
  rcases step_cases h with ⟨-, rfl⟩ | ⟨_, _, _, _, -, -, rfl⟩ | ⟨w, rest, u, hp, hu, rfl⟩ |
    ⟨_, _, _, _, _, -, -, -, rfl⟩ | ⟨_, _, _, -, -, rfl⟩ | ⟨rest, hp, rfl⟩
  · exact absurd rfl hmoved
  · exact absurd rfl hmoved
  · by_cases hw : w = encode .softReset
    · subst hw
      exact ⟨rest, .inr ⟨hp, by rw [command_softReset hu]⟩⟩
    · rw [command_of_locked (s := s.setPending rest) hs hw] at hu
      cases hu
      exact absurd rfl hmoved
  · exact absurd (writeReg_fatal _ _ _) hmoved
  · exact absurd rfl hmoved
  · exact ⟨rest, .inl ⟨hp, rfl⟩⟩

/-! ### Which check answers first -/

/-- COMMIT reports the check it finds failing. -/
theorem exec_commit_err {s t : State} {e : ErrCode} (hf : s.status.fatal = false)
    (h : exec .commit s = .next t) (he : topologyError s = some e) : t.status.err = e := by
  rw [exec_commit_free hf, commitState_fails he] at h
  cases h; rfl

/-- An access of another width, or misaligned, reaches no register (20_memory.md R47, R48). -/
theorem target_malformed (s : State) {width : Nat} {off : Offset}
    (h : ¬(width = 32 ∧ off.toNat % 4 = 0)) : target s width off = none :=
  if_neg h

/-- A frame with an invalid tag has a legal length, since it is taken as empty (60_exceptions.md
R136). -/
theorem lengthLegal_of_invalid_tag {s : State} (h : inputTag s = none) : LengthLegal s :=
  .inl (frameLen_of_sanitized (sanitized_iff_inputTag.2 h))

/-! ### The statements -/

/-- Settles O14: the lock stands in the commands only, so a register access is answered as without
it. -/
theorem lockRefusesCommandsOnly : Obligations.LockRefusesCommandsOnly := fun s hf =>
  ⟨fun _ => command_of_locked hf,
    fun _ v _ hr hcmd => ⟨perform_busWrite_mapped v hr hcmd, writeReg_status_config s v⟩,
    fun _ _ => perform_busRead_mapped⟩

/-- Settles O15: a step that leaves the lock is one of the two resets, and each restores the reset
table. -/
theorem onlyResetsLeaveTheLock : Obligations.OnlyResetsLeaveTheLock := by
  refine ⟨fun s t i h hf he _ => exec_not_fatal h hf he, fun s t h hs ht => ?_⟩
  obtain ⟨rest, ⟨hp, rfl⟩ | ⟨hp, rfl⟩⟩ := step_leaves_lock h hs ht
  · exact ⟨.inl (by rw [hp]; rfl), readsAsReset_hardReset (s.setPending rest)⟩
  · exact ⟨.inr (by rw [NextIsCommand, hp]; rfl), readsAsReset_resetRegs (s.setPending rest)⟩

/-- Settles O16: each command by its first failing check, and the malformed write by its target. -/
theorem errorPriority : Obligations.ErrorPriority := by
  refine ⟨fun _ _ => command_of_locked, fun s t w hf hw h => ?_,
    fun s t hf h => ⟨fun hzero => ?_, fun hzero horder => ?_, fun hzero horder hcap => ?_⟩,
    fun s t hf h => ⟨fun hc => ?_, fun hc _ hl => ?_, fun hc htag => ?_⟩,
    fun s width off v _ hbad => perform_busWrite_unmapped v (target_malformed s hbad)⟩
  · rw [command_illegal_free hf hw] at h
    cases h; rfl
  · exact exec_commit_err hf h (by rw [topologyError_eq, if_pos hzero])
  · exact exec_commit_err hf h (by rw [topologyError_eq, if_neg hzero, if_pos horder])
  · exact exec_commit_err hf h
      (by rw [topologyError_eq, if_neg hzero, if_neg horder, if_pos hcap])
  · rw [exec_process_guard hf hc] at h
    cases h; rfl
  · rw [exec_process_misaligned hf hc hl] at h
    cases h; rfl
  · obtain rfl := eq_writeBack ⟨hf, hc, lengthLegal_of_invalid_tag htag⟩ h
    rfl

end Sys2Proof.Machine

namespace Sys2Proof.Machine

/-! ## The machine as a whole: every word, every step, every state

What the earlier families leave over: the commands as words and as steps, what a failing command
keeps, the properties of the engine as a function of the frame (41_engine.md R119 to R123), the map,
and the invariant. -/

/-! ### Command words -/

theorem wordWellFormed_encode (i : Instr) : wordWellFormed (encode i) = true := by
  cases i with
  | nop => exact Laws.EncodesLegally.nop.2.1
  | commit => exact Laws.EncodesLegally.commit.2.1
  | process => exact Laws.EncodesLegally.process.2.1
  | softReset => exact Laws.EncodesLegally.softReset.2.1

/-- Settles O2: the decoder accepts exactly the words the encoder makes. -/
theorem decodeEncodeAgree : Obligations.DecodeEncodeAgree :=
  ⟨fun i _ => ⟨wordWellFormed_encode i, decode_eq_ok.2 rfl⟩, fun _ _ h => (decode_eq_ok.1 h).symm⟩

/-- Settles O3: the four words of the commands, a nonzero `MBZ` and a reserved opcode. -/
theorem sampleWordsDecode : Obligations.SampleWordsDecode :=
  ⟨decode_eq_ok.2 encode_nop.symm, decode_eq_ok.2 encode_commit.symm,
    decode_eq_ok.2 encode_process.symm, decode_eq_ok.2 encode_softReset.symm, rfl, rfl⟩

/-! ### Steps -/

theorem command_of_decode {w : Word} {i : Instr} (h : decode w = .ok i) (s : State) :
    command w s = exec i s := by
  rw [decode_eq_ok.1 h, command_encode]

/-- A step whose next input writes the word of a command runs that command (40_control.md R81). -/
theorem step_runs_decoded {s : State} {w : Word} {rest : List Input} {i : Instr}
    (hp : s.pending = .busWrite 32 cmdOffset w :: rest) (hd : decode w = .ok i) :
    ∃ t, exec i (s.setPending rest) = .next t ∧ step s = .next (t.answer .written) := by
  obtain ⟨t, ht⟩ := exec_answers i (s.setPending rest)
  exact ⟨t, ht, step_of_command_next hp ((command_of_decode hd _).trans ht)⟩

/-- A word loaded for fetching stands as the next write to `CMD` (log entry 3). -/
theorem withFetchWord_pending (s : State) (w : Word) :
    (s.withFetchWord 32 w.toNat).pending = .busWrite 32 cmdOffset w :: s.pending := by
  rw [State.withFetchWord, Nat.mod_eq_of_lt w.isLt, BitVec.ofNat_toNat, BitVec.setWidth_eq]
  rfl

/-- Settles O5: a loaded word is a pending write, and taking it off gives back the state before. -/
theorem stepRunsTheDecodedInstruction : Obligations.StepRunsTheDecodedInstruction :=
  ⟨fun _ _ _ _ hp hd _ => step_runs_decoded hp hd,
    fun s w _ hd _ => step_runs_decoded (withFetchWord_pending s w) hd⟩

theorem busWrite_answers (width : Nat) (off : Offset) (v : Word) (s : State) :
    ∃ t, busWrite width off v s = .next t := by
  cases hr : target s width off with
  | none => exact ⟨_, perform_busWrite_unmapped v hr⟩
  | some r =>
    obtain ⟨t, ht⟩ := perform_busWrite_answers v hr
    exact ⟨_, ht⟩

/-- An input is refused exactly when the spec puts it outside itself (20_memory.md R58,
70_reset_and_hazards.md R155; log entry 5). -/
theorem perform_answers_iff {i : Input} {s : State} : (∃ t, perform i s = .next t) ↔
    ¬((∃ off, i = .rstDuring off) ∨ ∃ a b, i = .twoMasters a b) := by
  cases i with
  | busRead width off => exact iff_of_true ⟨_, rfl⟩ (by simp)
  | busWrite width off v => exact iff_of_true (busWrite_answers width off v s) (by simp)
  | rst => exact iff_of_true ⟨_, rfl⟩ (by simp)
  | rstDuring off => exact iff_of_false (by simp [perform]) (by simp)
  | twoMasters a b => exact iff_of_false (by simp [perform]) (by simp)

theorem step_idle {s : State} (h : s.pending = []) : step s = .next s := by
  unfold step advance; rw [h]

/-- Settles O7: an idle step answers, and any other step answers when its input does. -/
theorem stepsRefuseOnlyInputsOutsideTheSpec : Obligations.StepsRefuseOnlyInputsOutsideTheSpec := by
  refine ⟨fun _ => step_idle, fun s => ?_⟩
  cases hp : s.pending with
  | nil => exact iff_of_true ⟨s, step_idle hp⟩ (by simp)
  | cons i rest =>
    rw [step_of_pending hp, perform_answers_iff]
    simp only [List.head?_cons, Option.some.injEq]

/-! ### COMMIT -/

/-- Settles O10: COMMIT without the lock and without a failing check. -/
theorem commitPassesOnLegalTopology : Obligations.CommitPassesOnLegalTopology := fun _ hf h =>
  (exec_commit_free hf).trans (congrArg _ (commitState_passes (topologyError_eq_none.2 h)))

theorem up_setBound_of_unused {s : State} {i : Fin 32} (v : Half) (hi : layers s ≤ i.val) {k : Nat}
    (hk : k < layers s) : up (s.setBound i v) k = up s k := by
  rw [up_setBound, if_neg (by omega)]

theorem layers_setBound (s : State) (i : Fin 32) (v : Half) :
    layers (s.setBound i v) = layers s := rfl

/-- The checks of COMMIT look at no boundary from `N` on (40_control.md R85). -/
theorem topologyError_setBound_of_unused {s : State} {i : Fin 32} (v : Half)
    (hi : layers s ≤ i.val) : topologyError (s.setBound i v) = topologyError s := by
  have hup {k : Nat} (hk : k < layers s) : up (s.setBound i v) k = up s k :=
    up_setBound_of_unused v hi hk
  have horder : boundOrderFails (s.setBound i v) = boundOrderFails s := by
    rw [Bool.eq_iff_iff, boundOrderFails_iff, boundOrderFails_iff, layers_setBound]
    exact exists_congr fun k => and_congr_right fun hk => by rw [hup hk, hup (by omega)]
  have hpos := layers_pos s
  rw [topologyError, topologyError, horder, layers_setBound, hup hpos, hup (by omega),
    State.setBound_bufBits]

theorem commitState_setBound_of_unused {s : State} {i : Fin 32} (v : Half)
    (hi : layers s ≤ i.val) :
    commitState (s.setBound i v) = (commitState s).setBound i v := by
  unfold commitState
  rw [topologyError_setBound_of_unused v hi]
  cases topologyError s <;> rfl

/-- Settles O11: COMMIT reads `BOUND` in its checks only, and writes `STATUS` only. -/
theorem commitIgnoresUnusedBoundaries : Obligations.CommitIgnoresUnusedBoundaries := by
  intro s i v hi
  cases hf : s.status.fatal with
  | true => exact ⟨s, exec_commit_locked hf, exec_commit_locked (s := s.setBound i v) hf⟩
  | false =>
    refine ⟨commitState s, exec_commit_free hf, ?_⟩
    rw [← commitState_setBound_of_unused v hi]
    exact exec_commit_free (s := s.setBound i v) hf

/-! ### Fatal errors -/

/-- The two ways a command can set the lock (60_exceptions.md R131). -/
theorem exec_sets_lock {i : Instr} {s t : State} (h : exec i s = .next t)
    (hs : s.status.fatal = false) (ht : t.status.fatal = true) :
    (i = .commit ∧ ∃ e, errIsFatal e = true ∧ t = raiseFatal e (clearCfgValid s)) ∨
      (i = .process ∧ t = raiseFatal .lenMisaligned s) := by
  have hmoved : t.status.fatal ≠ s.status.fatal := by simp [hs, ht]
  cases i with
  | nop =>
    rw [exec_nop] at h
    cases h; exact absurd rfl hmoved
  | commit =>
    rcases exec_commit_cases h with ⟨-, rfl⟩ | ⟨e, -, htop, rfl⟩ | ⟨-, -, rfl⟩
    · exact absurd rfl hmoved
    · exact .inl ⟨rfl, e, topologyError_fatal htop, rfl⟩
    · exact absurd rfl hmoved
  | process =>
    rcases exec_process_cases h with ⟨-, rfl⟩ | ⟨-, -, rfl⟩ | ⟨-, -, -, rfl⟩ | ⟨-, rfl⟩
    · exact absurd rfl hmoved
    · exact absurd rfl hmoved
    · exact .inr ⟨rfl, rfl⟩
    · exact absurd rfl hmoved
  | softReset =>
    rw [exec_softReset] at h
    cases h; exact Bool.noConfusion ht

/-- A new `STATUS` leaves every other register and the model's own fields alone. -/
theorem same_setStatus (s : State) (x : Status) : SameInputs s (s.setStatus x) ∧
    SameOutputs s (s.setStatus x) ∧ SameHost s (s.setStatus x) :=
  ⟨⟨rfl, rfl, rfl, rfl, rfl, rfl, fun _ => rfl⟩, ⟨rfl, rfl, fun _ => rfl, rfl, rfl, rfl, rfl⟩,
    rfl, rfl, rfl⟩

/-- Settles O13: only COMMIT and PROCESS set the lock, and each by a write of `STATUS` alone. -/
theorem fatalErrorsArePrecise : Obligations.FatalErrorsArePrecise := by
  intro i s t h hs ht
  have hdiag : SameDiagnostics s s := ⟨rfl, rfl, rfl, rfl, rfl⟩
  obtain ⟨rfl, e, he, rfl⟩ | ⟨rfl, rfl⟩ := exec_sets_lock h hs ht
  · obtain ⟨hin, hout, hhost⟩ := same_setStatus s (raiseFatal e (clearCfgValid s)).status
    exact ⟨he, rfl, hin, hout, hdiag, hhost, .inl ⟨rfl, rfl⟩⟩
  · obtain ⟨hin, hout, hhost⟩ := same_setStatus s (raiseFatal .lenMisaligned s).status
    exact ⟨rfl, rfl, hin, hout, hdiag, hhost, .inr ⟨rfl, rfl, rfl⟩⟩

end Sys2Proof.Machine

namespace Sys2Proof.Machine

/-! ## PROCESS as a function of the frame (41_engine.md R101 to R109, R119 to R123)

### Reach -/

/-- Settles O27, lane by lane. -/
theorem reachIsTheLengthComparison : Obligations.ReachIsTheLengthComparison := by
  intro s t hc h i
  obtain rfl := eq_writeBack hc h
  rw [writeBack_reach, getLsbD_packLanes_layers_iff, reached_iff, and_self_left, BitVec.le_def]

/-- A frame with payload ends at the boundary of a layer, and reaches the layers up to it
(41_engine.md R101). -/
theorem exists_last_layer {s : State} (h : TopologyLegal s) (hl : LengthLegal s)
    (h0 : frameLen s ≠ 0) :
    ∃ k, k < layers s ∧ up s k = frameLen s ∧ ∀ i, reached s i = true ↔ i ≤ k := by
  obtain ⟨k, hk, hlen⟩ := hl.resolve_left h0
  refine ⟨k, hk, hlen.symm, fun i => ?_⟩
  rw [reached_iff, hlen]
  constructor
  · rintro ⟨hi, hle⟩
    by_contra hki
    exact BitVec.not_le.2 (up_strict h (Nat.not_le.1 hki) hi) hle
  · intro hik
    exact ⟨by omega, up_mono h hik hk⟩

/-- No two layers of a legal topology end at the same boundary. -/
theorem up_inj {s : State} (h : TopologyLegal s) {i j : Nat} (hi : i < layers s)
    (hj : j < layers s) (he : up s i = up s j) : i = j := by
  rcases Nat.lt_trichotomy i j with hij | hij | hji
  · exact absurd (up_strict h hij hj) (by simp [he])
  · exact hij
  · exact absurd (up_strict h hji hi) (by simp [he])

/-- Settles O28: the last layer is the one the length ends at. -/
theorem reachedLayersFormAPrefix : Obligations.ReachedLayersFormAPrefix := by
  refine fun s h hl => ⟨reached_of_empty h, fun h0 => ?_⟩
  obtain ⟨k, hk, hup, hreached⟩ := exists_last_layer h hl h0
  exact ⟨k, ⟨hk, hup⟩, fun m hm hlen => up_inj h hm hk (hlen.trans hup.symm), hreached⟩

/-- The last layer that is reached is the highest one. -/
theorem topReached_of_reached_iff {s : State} {k : Nat} (h : ∀ i, reached s i = true ↔ i ≤ k) :
    topReached s = some k :=
  topReached_eq_some.2
    ⟨(h k).2 le_rfl, fun m hm => Bool.eq_false_iff.2 fun hr => Nat.not_le.2 hm ((h m).1 hr)⟩

/-! ### Input elements outside the intact layers -/

/-- The overlay copies no element outside the intact layers (41_engine.md R104). -/
theorem overlay_setInElem {s : State} {j : Nat} (v : Elem)
    (hj : ∀ i, intact s i = true → ¬((lo s i).toNat ≤ j ∧ j < (up s i).toNat)) :
    overlay (s.setInElem j v) = overlay s := by
  have hout : ∀ i, intact s i = true → (lo s i).toNat ≤ j → (up s i).toNat ≤ j :=
    fun i hi hlo => Nat.not_lt.1 fun hup => hj i hi ⟨hlo, hup⟩
  funext k
  by_cases hk : j = k
  · subst hk
    rw [overlay_eq_zero hout]
    exact overlay_eq_zero (s := s.setInElem j v) hout
  · simp only [overlay, inElem_setInElem, if_neg hk]; rfl

/-- PROCESS answers the same for two values of an element that the overlay does not copy. -/
theorem exec_process_setInElem {s : State} {j : Nat} {v : Elem}
    (h : overlay (s.setInElem j v) = overlay s) :
    ∃ t, exec .process s = .next t ∧
      exec .process (s.setInElem j v) = .next (t.setInElem j v) := by
  have hview : SameView s (s.setInElem j v) := ⟨rfl, rfl, rfl, rfl, rfl, rfl, rfl, h⟩
  obtain ⟨t, ht⟩ := exec_answers .process s
  refine ⟨t, ht, ?_⟩
  rcases exec_process_cases ht with ⟨hf, rfl⟩ | ⟨hf, hc, rfl⟩ | ⟨hf, hc, hl, rfl⟩ | ⟨hp, rfl⟩
  · exact exec_process_locked hf
  · exact exec_process_guard hf hc
  · exact exec_process_misaligned hf hc hl
  · exact (exec_process_completes (s := s.setInElem j v) hp).trans (congrArg _ hview.writeBack)

/-- Settles O30: the engine sees `IN_BUF` only through the overlay. -/
theorem onlyIntactLayersAreRead : Obligations.OnlyIntactLayersAreRead := fun _ _ v hj =>
  exec_process_setInElem (overlay_setInElem v hj)

/-! ### Truncation -/

/-- A scan that keeps the first hit of a list finds what `find?` finds. -/
theorem foldr_ite_eq_find? {α β : Type} (p : α → Bool) (f : α → β) (b : β) (l : List α) :
    l.foldr (fun a acc => if p a = true then f a else acc) b = ((l.find? p).map f).getD b := by
  induction l with
  | nil => rfl
  | cons a l ih =>
    rw [List.foldr_cons, List.find?_cons]
    cases p a with
    | false => exact ih
    | true => rfl

theorem outputLen_eq (s : State) :
    outputLen s = ((firstTrunc s).map (lo s)).getD (frameLen s) := by
  cases ht : firstTrunc s with
  | none => exact outputLen_none ht
  | some t => exact outputLen_some ht

/-- Settles O33: the descending scan ends with the lowest erased layer. -/
theorem layeredEqualsTheDescendingScan : Obligations.LayeredEqualsTheDescendingScan := by
  intro s hm
  rw [outputLen_eq, firstTrunc_layered hm, List.foldl_reverse]
  exact (foldr_ite_eq_find? (erased s) (lo s) (frameLen s) _).symm

/-- An output without truncation, or shortened to the lower boundary of a layer, has a legal length
(41_engine.md R119). -/
theorem outputLen_legal {s : State} (hl : LengthLegal s) :
    outputLen s = 0 ∨ ∃ i, i < layers s ∧ outputLen s = up s i := by
  cases ht : firstTrunc s with
  | none => rwa [outputLen_none ht]
  | some t =>
    have hlt : t < layers s := erased_lt (firstTrunc_erased ht)
    rw [outputLen_some ht]
    cases t with
    | zero => exact .inl rfl
    | succ t => exact .inr ⟨t, by omega, rfl⟩

/-- Settles O40: the cut falls on a boundary, and below the sanitized length. -/
theorem outputLengthIsLegal : Obligations.OutputLengthIsLegal := by
  intro s t hc h hexec
  obtain rfl := eq_writeBack hc hexec
  obtain ⟨-, -, hl⟩ := hc
  exact ⟨outputLen_legal hl, outputLen_le h⟩

/-- What `OUT_BUF` reads as where the overlay is blank. -/
theorem outElem_writeBack_of_blank {s : State} {j : Nat} (h : overlay s j = 0) :
    outElem (writeBack s) j = 0 := by
  rw [outElem_writeBack, payloadOut, h, ite_self, ite_self]

/-- At and above the output length `OUT_BUF` reads 0x0000 (41_engine.md R113). -/
theorem outElem_writeBack_beyond {s : State} {j : Nat} (hj : (outputLen s).toNat ≤ j) :
    outElem (writeBack s) j = 0 := by
  rw [outElem_writeBack, payloadOut, if_neg (Nat.not_lt.2 hj), ite_self]

/-- Settles O35: a layer below the run is retained whole, and an erased one is blank. -/
theorem individualKeepsBlankLayers : Obligations.IndividualKeepsBlankLayers := by
  intro s t hc h _ hexec i hi hkept
  obtain rfl := eq_writeBack hc hexec
  exact ⟨up_le_outputLen h (erased_iff.1 hi).1 hkept,
    fun j h1 h2 => outElem_writeBack_of_blank (overlay_of_erased h hi h1 h2)⟩

/-! ### More erasure -/

/-- A run of erased layers at the top starts at or above the layer INDIVIDUAL truncates. -/
theorem exists_truncIndividual_le {s : State} {k a : Nat} (h0 : frameLen s ≠ 0)
    (hk : topReached s = some k) (hak : a ≤ k) (hrun : ∀ m, a ≤ m → m ≤ k → erased s m = true) :
    ∃ b, b ≤ a ∧ truncIndividual s = some b := by
  induction a with
  | zero => exact ⟨0, le_rfl, truncIndividual_of_run h0 hk hak hrun nofun⟩
  | succ a ih =>
    cases ha : erased s a with
    | true =>
      have hrun' : ∀ m, a ≤ m → m ≤ k → erased s m = true := fun m ham hmk =>
        (Nat.eq_or_lt_of_le ham).elim (fun he => he ▸ ha) (fun hlt => hrun m hlt hmk)
      obtain ⟨b, hb, hb'⟩ := ih (by omega) hrun'
      exact ⟨b, by omega, hb'⟩
    | false =>
      refine ⟨a + 1, le_rfl, truncIndividual_of_run h0 hk hak hrun fun b hb => ?_⟩
      obtain rfl : a = b := by omega
      exact ha

theorem outputLen_le_lo {s : State} (h : TopologyLegal s) {a b : Nat}
    (hb : firstTrunc s = some b) (hba : b ≤ a) (ha : a < layers s) : outputLen s ≤ lo s a := by
  rw [outputLen_some hb, BitVec.le_def]
  exact lo_mono h hba ha

theorem erased_setFlags {s : State} {f : Word}
    (hf : ∀ i, i < layers s → s.flags.getLsbD i = true → f.getLsbD i = true) {i : Nat}
    (hi : erased s i = true) : erased (s.setFlags f) i = true := by
  obtain ⟨hr, hflag⟩ := erased_iff.1 hi
  exact erased_iff.2 ⟨hr, hf i (reached_lt hr) hflag⟩

/-- More flags truncate at the same layer or below it, or at least to the same length
(41_engine.md R120). -/
theorem outputLen_setFlags_le {s : State} {f : Word} (h : TopologyLegal s)
    (hf : ∀ i, i < layers s → s.flags.getLsbD i = true → f.getLsbD i = true) :
    outputLen (s.setFlags f) ≤ outputLen s := by
  cases ha : firstTrunc s with
  | none =>
    rw [outputLen_none ha]
    exact outputLen_le (s := s.setFlags f) h
  | some a =>
    have hera : erased s a = true := firstTrunc_erased ha
    rw [outputLen_some ha]
    cases hm : s.ctrl.mode with
    | layered =>
      exact BitVec.le_def.2
        (outputLen_le_lo_of_layered (s := s.setFlags f) h hm (erased_setFlags hf hera))
    | individual =>
      rw [firstTrunc_individual hm] at ha
      obtain ⟨h0, k, hk, hak, hrun, -⟩ := truncIndividual_eq_some.1 ha
      obtain ⟨b, hba, hb⟩ := exists_truncIndividual_le (s := s.setFlags f) h0 hk hak
        fun m ham hmk => erased_setFlags hf (hrun m ham hmk)
      have htrunc := (firstTrunc_individual (s := s.setFlags f) hm).trans hb
      exact outputLen_le_lo (s := s.setFlags f) h htrunc hba (erased_lt (erased_setFlags hf hera))

/-- Settles O41: PROCESS completes with either flag vector, since no check reads the flags. -/
theorem erasureIsMonotone : Obligations.ErasureIsMonotone := by
  intro s t u f hc h hf ht hu
  obtain rfl := eq_writeBack hc ht
  obtain rfl := eq_writeBack (s := s.setFlags f) hc hu
  exact outputLen_setFlags_le h hf

/-! ### Frames without erasure -/

theorem firstTrunc_of_no_erased {s : State} (h : ∀ i, erased s i = false) :
    firstTrunc s = none :=
  Option.eq_none_iff_forall_ne_some.2 fun a ha =>
    absurd (firstTrunc_erased ha) (Bool.eq_false_iff.1 (h a))

theorem newlyApplied_of_no_erased {s : State} (h : ∀ i, erased s i = false) (i : Nat) :
    newlyApplied s i = false := by
  have hnone := firstTrunc_of_no_erased h
  simp [newlyApplied, aboveTrunc, h i, hnone]

theorem erased_of_no_flag {s : State} (h : ∀ i, i < layers s → flag s i = false) (i : Nat) :
    erased s i = false :=
  Bool.eq_false_iff.2 fun hi =>
    Bool.eq_false_iff.1 (h i (erased_lt hi)) (erased_iff.1 hi).2

/-- Without erasures the overlay is the input up to the sanitized length (41_engine.md R121). -/
theorem overlay_of_no_erased {s : State} (h : TopologyLegal s) (hl : LengthLegal s)
    (hn : ∀ i, erased s i = false) {j : Nat} (hj : j < (frameLen s).toNat) :
    overlay s j = inElem s j := by
  obtain ⟨i, hr, h1, h2⟩ := exists_reached_layer h hl hj
  have hi : intact s i = true := (erased_or_intact hr).resolve_left (Bool.eq_false_iff.1 (hn i))
  rw [overlay_in_layer h (reached_lt hr) h1 h2, if_pos hi]

theorem frameLen_of_valid_tag {s : State} {u : Tag} (h : inputTag s = some u) :
    frameLen s = s.inLen := by
  simp [frameLen, sanitized, h]

theorem tag0_of_valid_tag {s : State} {u : Tag} (h : inputTag s = some u) : tag0 s = u := by
  simp [tag0, h]

theorem tag_eq_iff {t u : Tag} : t = u ↔ (u = .fer ↔ t = .fer) := by
  cases t <;> cases u <;> decide

/-- Without erasures the tag passes exactly for a frame without payload or with a tag that goes with
its zeros (41_engine.md R121). -/
theorem tagOut_of_no_erased {s : State} (h : TopologyLegal s) (hl : LengthLegal s)
    (hn : ∀ i, erased s i = false) :
    tagOut s = tag0 s ↔ frameLen s = 0 ∨
      (tag0 s = .fer ↔ ∃ j, j < (frameLen s).toNat ∧ inElem s j = 0) := by
  have hlen : outputLen s = frameLen s := outputLen_none (firstTrunc_of_no_erased hn)
  by_cases h0 : frameLen s = 0
  · exact iff_of_true ((tagOut_of_empty (hlen.trans h0)).trans (tag1_of_no_erased hn)) (.inl h0)
  · have hzero : tagOut s = .fer ↔ ∃ j, j < (frameLen s).toNat ∧ inElem s j = 0 := by
      rw [tagOut_fer_iff (hlen ▸ h0), hlen]
      exact exists_congr fun j => and_congr_right fun hj => by
        rw [overlay_of_no_erased h hl hn hj]
    rw [or_iff_right h0, ← hzero, tag_eq_iff]

/-- Settles O42: without flags nothing is erased, so length, payload and tag follow the input. -/
theorem allIntactRoundTrip : Obligations.AllIntactRoundTrip := by
  intro s t u hc h htag hflags hexec
  obtain rfl := eq_writeBack hc hexec
  obtain ⟨-, -, hl⟩ := hc
  have hn := erased_of_no_flag hflags
  have hframe := frameLen_of_valid_tag htag
  have hlen : outputLen s = s.inLen := (outputLen_none (firstTrunc_of_no_erased hn)).trans hframe
  have hcap := BitVec.le_def.1 (hframe ▸ frameLen_le_cap h hl)
  have htagOut := tagOut_of_no_erased h hl hn
  rw [tag0_of_valid_tag htag, hframe] at htagOut
  refine ⟨hlen, fun j hj => ?_, encodeTag_inj.trans htagOut, fun hfmt hcons => ?_⟩
  · rw [outElem_writeBack_of_lt (by omega), payloadOut, if_pos (hlen ▸ hj),
      overlay_of_no_erased h hl hn (hframe ▸ hj)]
  · rw [writeBack_outTag, htagOut.2 hcons, ← hfmt]
    exact (decodeTag_eq_some.1 htag).symm

/-! ### Frames without payload, and frames that are lost -/

theorem packLanes_eq_zero {s : State} {p : Nat → Bool} (h : ∀ i, p i = false) :
    packLanes p (layers s) = 0 := by
  refine BitVec.eq_of_getLsbD_eq fun i _ => ?_
  rw [getLsbD_packLanes_layers, h i, Bool.and_false, BitVec.ofNat_eq_ofNat, BitVec.getLsbD_zero]

/-- A no-data output counts no layer (41_engine.md R115). -/
theorem cumulative_of_nodata {s : State} (h : nodataOut s = true) (i : Nat) :
    cumulative s i = false := by
  simp [cumulative, h]

/-- A lost frame counts every configured layer (41_engine.md R114). -/
theorem writeBack_cumul_of_lost {s : State} (h : TopologyLegal s) (h0 : outputLen s = 0)
    (ht : tagOut s = .fer) (i : Nat) :
    (writeBack s).cumul.getLsbD i = decide (i < layers s) := by
  have hcumul (hi : i < layers s) : cumulative s i = true := by
    have hpos := up_pos h hi
    refine cumulative_iff.2 ⟨by simp [ht], .inl ?_⟩
    rw [h0, BitVec.lt_def]
    exact hpos
  rw [writeBack_cumul, getLsbD_packLanes_layers]
  by_cases hi : i < layers s
  · rw [hcumul hi, Bool.and_true]
  · simp [hi]

/-- What a frame without payload leaves, whatever `FLAGS` (41_engine.md R122). -/
theorem writeBack_of_empty {s : State} (h : TopologyLegal s) (h0 : frameLen s = 0) :
    outputLen s = 0 ∧ (writeBack s).applied = 0 ∧ (writeBack s).reach = 0 ∧
      tagOut s = tag0 s := by
  have hn := erased_of_empty h h0
  have hlen : outputLen s = 0 := (outputLen_none (firstTrunc_of_no_erased hn)).trans h0
  exact ⟨hlen, packLanes_eq_zero (newlyApplied_of_no_erased hn),
    packLanes_eq_zero (reached_of_empty h h0),
    (tagOut_of_empty hlen).trans (tag1_of_no_erased hn)⟩

/-- Settles O43: nothing is reached, so the tag decides between no data and a lost frame. -/
theorem framesWithoutPayload : Obligations.FramesWithoutPayload := by
  intro s t hc h h0 hexec
  obtain rfl := eq_writeBack hc hexec
  obtain ⟨hlen, happlied, hreach, htag⟩ := writeBack_of_empty h h0
  refine ⟨hlen, happlied, hreach, congrArg (encodeTag · _) htag, fun hsync => ?_, fun hfer => ?_⟩
  · have hnodata : nodataOut s = true := nodataOut_iff.2 ⟨htag.trans hsync, hlen⟩
    exact ⟨packLanes_eq_zero (cumulative_of_nodata hnodata), decide_eq_true ⟨hsync, h0⟩, hnodata⟩
  · exact writeBack_cumul_of_lost h hlen (htag.trans hfer)

/-- Settles O26: a sanitized frame is a FER frame without payload. -/
theorem sanitizedFrameIsTotalLoss : Obligations.SanitizedFrameIsTotalLoss := by
  intro s hf hc h hinvalid
  have hsan : sanitized s = true := sanitized_iff_inputTag.2 hinvalid
  obtain ⟨hlen, happlied, hreach, htag⟩ := writeBack_of_empty h (frameLen_of_sanitized hsan)
  have hfer : tagOut s = .fer := htag.trans (tag0_of_sanitized hsan)
  exact ⟨writeBack s, exec_process_completes ⟨hf, hc, lengthLegal_of_invalid_tag hinvalid⟩,
    congrArg (encodeTag · _) hfer, hlen, fun j _ => outElem_writeBack_beyond (by simp [hlen]),
    happlied, hreach, writeBack_cumul_of_lost h hlen hfer, hsan, rfl⟩

/-- When the erased layers are those up to the last reached one, both modes truncate at layer 0
(41_engine.md R123). -/
theorem firstTrunc_of_all_erased {s : State} {k : Nat} (h0 : frameLen s ≠ 0)
    (hk : topReached s = some k) (he : ∀ i, i ≤ k → erased s i = true) :
    firstTrunc s = some 0 := by
  cases hm : s.ctrl.mode with
  | layered =>
    exact (firstTrunc_layered hm).trans (truncLayered_eq_some.2 ⟨he 0 (Nat.zero_le k), nofun⟩)
  | individual =>
    exact (firstTrunc_individual hm).trans
      (truncIndividual_of_run h0 hk (Nat.zero_le k) (fun m _ => he m) nofun)

/-- Settles O44: every layer up to the last reached one is erased, so nothing is retained. -/
theorem allReachedErasedLosesTheFrame : Obligations.AllReachedErasedLosesTheFrame := by
  intro s t hc h h0 hflags hexec
  obtain rfl := eq_writeBack hc hexec
  obtain ⟨-, -, hl⟩ := hc
  obtain ⟨k, -, -, hreached⟩ := exists_last_layer h hl h0
  have herased : ∀ i, reached s i = true → erased s i = true :=
    fun i hi => erased_iff.2 ⟨hi, hflags i hi⟩
  have htrunc : firstTrunc s = some 0 := firstTrunc_of_all_erased h0
    (topReached_of_reached_iff hreached) fun i hi => herased i ((hreached i).2 hi)
  have hlen : outputLen s = 0 := outputLen_some htrunc
  have htag : tagOut s = .fer :=
    (tagOut_of_empty hlen).trans (tag1_of_erased (firstTrunc_erased htrunc))
  have happlied : newlyApplied s = reached s := by
    funext i
    rw [Bool.eq_iff_iff]
    exact ⟨newlyApplied_reached, fun hi => newlyApplied_iff.2 (.inl (herased i hi))⟩
  exact ⟨htrunc, hlen, congrArg (encodeTag · _) htag, congrArg (packLanes · _) happlied,
    writeBack_cumul_of_lost h hlen htag, fun j _ => outElem_writeBack_beyond (by simp [hlen])⟩

end Sys2Proof.Machine

namespace Sys2Proof.Machine

/-! ## The map, the layout of `STATUS`, and the invariant

### The map and the layout of `STATUS` -/

/-- The word of an output element (20_memory.md R42). -/
theorem regAt_outBuf {b j : Nat} (hb : 4 * b ≤ 0x40000) (hj : j < b) :
    regAt b (0x80000 + 4 * j) = some (.outBuf j) := by
  have hword : (0x80000 + 4 * j - 0x80000) / 4 = j := by omega
  unfold regAt
  repeat rw [if_neg (by omega)]
  rw [if_pos (by omega), hword]

/-- The offset of an output element (20_memory.md R42). -/
theorem target_outBuf {s : State} {j : Nat} (hj : j < s.bufBits.toNat) :
    target s 32 (BitVec.ofNat 20 (0x80000 + 4 * j)) = some (.outBuf j) := by
  have hcap := s.bufBits.isLt
  have hoff : (BitVec.ofNat 20 (0x80000 + 4 * j)).toNat = 0x80000 + 4 * j := by
    rw [BitVec.toNat_ofNat]; omega
  rw [target, hoff, if_pos ⟨rfl, by omega⟩, regAt_outBuf (by omega) hj]

/-- Settles O45: the words of the map one by one, and no word outside it. -/
theorem addressMap : Obligations.AddressMap := fun s =>
  ⟨⟨rfl, rfl, rfl, rfl, rfl, rfl, rfl, rfl, rfl, rfl, rfl, rfl, rfl⟩, target_bound s,
    fun _ hj => ⟨target_inBuf hj, target_outBuf hj⟩,
    fun _ hhole => target_eq_none.2 fun ⟨_, hmapped⟩ => hhole hmapped⟩

/-- Where a read of `STATUS` shows its one-bit fields (10_state.md R29). -/
theorem statusWord_bits (x : Status) :
    (statusWord x).getLsbD 0 = x.cfgValid ∧ (statusWord x).getLsbD 1 = x.done ∧
    (statusWord x).getLsbD 2 = x.fatal ∧ (statusWord x).getLsbD 3 = false ∧
    (statusWord x).getLsbD 8 = x.sanitized ∧ (statusWord x).getLsbD 9 = x.nodataIn ∧
    (statusWord x).getLsbD 10 = x.nodataOut ∧ (statusWord x).getLsbD 11 = x.trunc := by
  simp only [statusWord, BitVec.getLsbD_append]
  simp

theorem statusWord_err (x : Status) : (statusWord x).extractLsb' 4 4 = errBits x.err := by
  unfold statusWord
  iterate 4 rw [BitVec.extractLsb'_append_eq_of_le (by decide)]
  exact BitVec.extractLsb'_append_eq_right

/-- The fields of `STATUS` above `TRUNC` (10_state.md R29). -/
theorem statusWord_high (x : Status) : (statusWord x).extractLsb' 12 4 = 0#4 ∧
    (statusWord x).extractLsb' 16 5 = x.firstTrunc ∧
    (statusWord x).extractLsb' 21 11 = 0#11 := by
  unfold statusWord
  refine ⟨?_, ?_, ?_⟩
  · iterate 9 rw [BitVec.extractLsb'_append_eq_of_le (by decide)]
    exact BitVec.extractLsb'_append_eq_right
  · iterate 10 rw [BitVec.extractLsb'_append_eq_of_le (by decide)]
    exact BitVec.extractLsb'_append_eq_right
  · iterate 10 rw [BitVec.extractLsb'_append_eq_of_le (by decide)]
    exact BitVec.extractLsb'_append_eq_left

/-- Settles O53, field by field. -/
theorem statusLayout : Obligations.StatusLayout := by
  refine ⟨⟨rfl, rfl, rfl, rfl, rfl, rfl, rfl⟩, fun x => ?_⟩
  obtain ⟨hcfg, hdone, hfatal, hres, hsan, hin, hout, htrunc⟩ := statusWord_bits x
  exact ⟨hcfg, hdone, hfatal, hres, statusWord_err x, hsan, hin, hout, htrunc, statusWord_high x⟩

/-- Settles O60: a write of `CTRL` reaches none of the three registers. -/
theorem attributionVectorsReadAsStored : Obligations.AttributionVectorsReadAsStored := by
  refine fun s => ⟨⟨rfl, rfl, rfl⟩, fun v =>
    ⟨_, perform_busWrite_mapped v (target_ctrl s) Reg.noConfusion, fun r hr => ?_⟩⟩
  rw [readReg_answer]
  refine readReg_writeReg_other s v ?_ ?_ <;> rintro rfl <;> simp at hr

/-- After `RST` an input element holds the free value of that reset (70_reset_and_hazards.md
R145). -/
theorem inElem_hardReset (s : State) (j : Nat) :
    inElem (hardReset s) j = Config.inBufAfterRst (s.rstCount + 1) j := rfl

/-- Settles O56: `State.reset` is what SOFT_RESET makes of it, and a write reaches one element. -/
theorem resetStateAndFreeInputBuffer : Obligations.ResetStateAndFreeInputBuffer := by
  refine ⟨readsAsReset_resetRegs State.reset, fun s j k v => ⟨inElem_hardReset s j, fun hjk => ?_⟩⟩
  rw [inElem_setInElem, if_neg hjk.symm, inElem_hardReset]

/-! ### The form of the buffers -/

/-- A write of a register inside the map keeps the form of the buffers. -/
theorem memory_wf_writeReg {s : State} {r : Reg} (v : Word)
    (hr : ∀ j, r = .inBuf j → j < s.bufBits.toNat) (h : Memory.wf s) :
    Memory.wf (writeReg s r v) := by
  cases r with
  | inBuf j => exact memory_wf_setInElem (hr j rfl) h
  | _ => exact memory_wf_of_same rfl rfl rfl h

theorem memory_wf_command {s t : State} {w : Word} (hc : command w s = .next t)
    (h : Memory.wf s) : Memory.wf t := by
  by_cases hw : w = encode .softReset
  · subst hw
    rw [command_softReset hc]
    exact memory_wf_resetRegs h
  · rcases command_status_only_or_writeBack hc hw with ⟨-, -, rfl⟩ | ⟨_, _, _, _, rfl, -⟩
    · exact memory_wf_writeBack h
    · exact memory_wf_of_same rfl rfl rfl h

/-- An access to an input element is inside the buffer. -/
theorem target_inBuf_lt {s : State} {width : Nat} {off : Offset} {r : Reg}
    (h : target s width off = some r) (j : Nat) (hj : r = .inBuf j) : j < s.bufBits.toNat := by
  obtain ⟨-, -, hreg⟩ := target_some h
  exact regAt_inBuf (hj ▸ hreg)

/-- Settles O57, by the cases of a step. -/
theorem stepsKeepTheBufferForm : Obligations.StepsKeepTheBufferForm := by
  intro s t h hstep
  rcases step_cases hstep with ⟨-, rfl⟩ | ⟨_, _, _, _, -, -, rfl⟩ | ⟨_, rest, _, -, hu, rfl⟩ |
    ⟨_, _, v, _, rest, -, hr, -, rfl⟩ | ⟨_, _, _, -, -, rfl⟩ | ⟨_, -, rfl⟩
  · exact h
  · exact h
  · exact (memory_wf_command (s := s.setPending rest) hu h :)
  · exact (memory_wf_writeReg (s := s.setPending rest) v (target_inBuf_lt hr) h :)
  · exact h
  · exact memory_wf_hardReset _

/-! ### The invariant: what leaves the outputs alone -/

/-- An update that keeps outputs and diagnostics keeps the invariant, when it keeps the form of the
buffers and what `CFG_VALID`, `FATAL` and `DONE` promise. -/
theorem State.Inv.of_sameOutputs {s t : State} (h : s.Inv) (hbits : t.bufBits = s.bufBits)
    (hout : SameOutputs s t) (hdiag : SameDiagnostics s t) (hmem : Memory.wf t)
    (hconfig : t.status.cfgValid = true → TopologyLegal t)
    (hlock : t.status.fatal = errIsFatal t.status.err)
    (hdone : t.status.done = true → t.status.err = .ok) : t.Inv := by
  obtain ⟨htag, hlen, helem, happlied, hcumul, hreach, -⟩ := hout
  obtain ⟨-, -, hnodata, htrunc, hfirst⟩ := hdiag
  exact {
    capacity := by rw [hbits]; exact h.capacity
    memory := hmem
    config := hconfig
    lock := hlock
    done := hdone
    outLen := by rw [hlen, hbits]; exact h.outLen
    outBuf := by simp only [hlen, helem]; exact h.outBuf
    outTag := by rw [htag]; exact h.outTag
    firstTrunc := by rw [htrunc, hfirst]; exact h.firstTrunc
    nodata := by rw [hnodata, hlen, happlied, hcumul]; exact h.nodata
    applied := by rw [happlied, hreach, hcumul]; exact h.applied }

theorem inv_setPending {s : State} (p : List Input) (h : s.Inv) : (s.setPending p).Inv :=
  h.of_sameOutputs rfl ⟨rfl, rfl, fun _ => rfl, rfl, rfl, rfl, rfl⟩ ⟨rfl, rfl, rfl, rfl, rfl⟩
    h.memory h.config h.lock h.done

theorem inv_answer {s : State} (r : Response) (h : s.Inv) : (s.answer r).Inv :=
  h.of_sameOutputs rfl ⟨rfl, rfl, fun _ => rfl, rfl, rfl, rfl, rfl⟩ ⟨rfl, rfl, rfl, rfl, rfl⟩
    h.memory h.config h.lock h.done

/-- The bookkeeping fields of `STATUS` that a command writes. -/
theorem inv_setStatus {s : State} {c d f : Bool} {e : ErrCode} (h : s.Inv)
    (hconfig : c = true → TopologyLegal s) (hlock : f = errIsFatal e)
    (hdone : d = true → e = .ok) :
    (s.setStatus { s.status with cfgValid := c, done := d, fatal := f, err := e }).Inv :=
  h.of_sameOutputs rfl ⟨rfl, rfl, fun _ => rfl, rfl, rfl, rfl, rfl⟩ ⟨rfl, rfl, rfl, rfl, rfl⟩
    h.memory hconfig hlock hdone

/-- A configuration write clears `CFG_VALID`, and no other write reaches the configuration. -/
theorem inv_writeReg {s : State} {r : Reg} (v : Word)
    (hr : ∀ j, r = .inBuf j → j < s.bufBits.toNat) (h : s.Inv) : (writeReg s r v).Inv := by
  have hout := sameOutputs_writeReg s r v
  have hmem := memory_wf_writeReg v hr h.memory
  have hbits := writeReg_bufBits s r v
  cases r with
  | ctrl | bound i =>
    exact h.of_sameOutputs hbits hout ⟨rfl, rfl, rfl, rfl, rfl⟩ hmem nofun h.lock h.done
  | _ => exact h.of_sameOutputs hbits hout ⟨rfl, rfl, rfl, rfl, rfl⟩ hmem h.config h.lock h.done

/-! ### The invariant: resets -/

/-- The default topology is legal for every permitted capacity (70_reset_and_hazards.md R146). -/
theorem topologyLegal_resetWith {b : Half} (hb : 640 ≤ b.toNat) :
    TopologyLegal (State.resetWith b) := by
  have hfirst : boundReset[0]?.getD 0 ≠ 0 := by decide
  have hrise : ∀ i < 5, 1 ≤ i → boundReset[i - 1]?.getD 0 < boundReset[i]?.getD 0 := by decide
  have hlast : up (State.resetWith b) (layers (State.resetWith b) - 1) = 640#16 := rfl
  exact ⟨hfirst, hrise, hlast ▸ BitVec.le_def.2 hb⟩

theorem inv_resetWith {b : Half} (hb : 640 ≤ b.toNat) : (State.resetWith b).Inv where
  capacity := hb
  memory := memory_wf_reset b
  config _ := topologyLegal_resetWith hb
  lock := rfl
  done := nofun
  outLen := BitVec.le_def.2 (Nat.zero_le _)
  outBuf _ _ := rfl
  outTag := .inl rfl
  firstTrunc _ := rfl
  nodata := nofun
  applied := ⟨BitVec.and_self, BitVec.and_self⟩

/-- Settles O58: the reset state of every capacity, 640 among them. -/
theorem resetMeetsTheInvariant : Obligations.ResetMeetsTheInvariant :=
  ⟨inv_resetWith (b := 640#16) le_rfl, fun _ => inv_resetWith⟩

/-- SOFT_RESET leaves the registers of the reset state, and `IN_BUF` as it was. -/
theorem inv_resetRegs {s : State} (h : s.Inv) : (resetRegs s).Inv := by
  have hreset := inv_resetWith h.capacity
  exact hreset.of_sameOutputs rfl ⟨rfl, rfl, fun _ => rfl, rfl, rfl, rfl, rfl⟩
    ⟨rfl, rfl, rfl, rfl, rfl⟩ (memory_wf_resetRegs h.memory) hreset.config hreset.lock hreset.done

theorem inv_hardReset {s : State} (h : s.Inv) : (hardReset s).Inv := by
  have hreset := inv_resetWith h.capacity
  exact hreset.of_sameOutputs rfl ⟨rfl, rfl, fun _ => rfl, rfl, rfl, rfl, rfl⟩
    ⟨rfl, rfl, rfl, rfl, rfl⟩ (memory_wf_hardReset s) hreset.config hreset.lock hreset.done

/-! ### The invariant: the write-back of PROCESS -/

theorem exists_erased_of_newlyApplied {s : State} {i : Nat} (h : newlyApplied s i = true) :
    ∃ m, erased s m = true := by
  rcases newlyApplied_iff.1 h with hi | ⟨⟨t, ht, -⟩, -⟩
  · exact ⟨i, hi⟩
  · exact ⟨t, firstTrunc_erased ht⟩

/-- An output without data has lost no layer, since an erasure makes it FER (41_engine.md R115). -/
theorem newlyApplied_of_nodata {s : State} (h : nodataOut s = true) (i : Nat) :
    newlyApplied s i = false := by
  obtain ⟨hsync, h0⟩ := nodataOut_iff.1 h
  refine Bool.eq_false_iff.2 fun hi => ?_
  obtain ⟨m, hm⟩ := exists_erased_of_newlyApplied hi
  rw [tagOut_of_empty h0, tag1_of_erased hm] at hsync
  cases hsync

/-- A layer newly erased is erased in the output: cut off from the first truncated layer on, and
retained and blank below it (41_engine.md R110, R114). -/
theorem cumulative_of_newlyApplied {s : State} (h : TopologyLegal s) {i : Nat}
    (hi : newlyApplied s i = true) : cumulative s i = true := by
  have hreached := newlyApplied_reached hi
  have hdata : ¬(tagOut s = .sync ∧ outputLen s = 0) := fun hnodata =>
    Bool.eq_false_iff.1 (newlyApplied_of_nodata (nodataOut_iff.2 hnodata) i) hi
  refine cumulative_iff.2 ⟨hdata, ?_⟩
  by_cases hcut : ∃ a, firstTrunc s = some a ∧ a ≤ i
  · obtain ⟨a, ha, hai⟩ := hcut
    have hlo := lo_mono h hai (reached_lt hreached)
    have hup := lo_lt_up h (reached_lt hreached)
    rw [outputLen_some ha, BitVec.lt_def]
    exact .inl (by omega)
  · have hkept : ∀ a, firstTrunc s = some a → i < a := fun a ha =>
      Nat.not_le.1 fun hai => hcut ⟨a, ha, hai⟩
    have herased : erased s i = true := (newlyApplied_iff.1 hi).resolve_right
      fun ⟨⟨a, ha, hai⟩, _⟩ => hcut ⟨a, ha, Nat.le_of_lt hai⟩
    have hup := up_le_outputLen h hreached hkept
    exact .inr ⟨⟨tagOut_of_kept_erased h herased hup, hup⟩,
      layerBlank_iff.2 fun _ => overlay_of_erased h herased⟩

theorem packLanes_and_of_imp {s : State} {p q : Nat → Bool} (h : ∀ i, p i = true → q i = true) :
    packLanes p (layers s) &&& packLanes q (layers s) = packLanes p (layers s) := by
  refine BitVec.eq_of_getLsbD_eq fun i _ => ?_
  rw [BitVec.getLsbD_and, Bool.eq_iff_iff, Bool.and_eq_true, getLsbD_packLanes_layers_iff,
    getLsbD_packLanes_layers_iff]
  exact and_iff_left_of_imp fun ⟨hi, hp⟩ => ⟨hi, h i hp⟩

theorem inv_writeBack {s : State} (hc : CanProcess s) (h : s.Inv) : (writeBack s).Inv := by
  obtain ⟨hfree, hvalid, hlen⟩ := hc
  have htop : TopologyLegal s := h.config hvalid
  exact {
    capacity := h.capacity
    memory := memory_wf_writeBack h.memory
    config := h.config
    lock := hfree
    done := fun _ => rfl
    outLen := BitVec.le_trans (outputLen_le htop) (frameLen_le_cap htop hlen)
    outBuf := fun _ => outElem_writeBack_beyond
    outTag := .inr ⟨_, _, rfl⟩
    firstTrunc := writeBack_firstTrunc_none
    nodata := fun hnodata => ⟨(nodataOut_iff.1 hnodata).2,
      packLanes_eq_zero (newlyApplied_of_nodata hnodata),
      packLanes_eq_zero (cumulative_of_nodata hnodata)⟩
    applied := ⟨packLanes_and_of_imp fun _ => newlyApplied_reached,
      packLanes_and_of_imp fun _ => cumulative_of_newlyApplied htop⟩ }

/-! ### The invariant: commands and steps -/

theorem inv_commit {s t : State} (hc : exec .commit s = .next t) (h : s.Inv) : t.Inv := by
  rcases exec_commit_cases hc with ⟨-, rfl⟩ | ⟨e, -, he, rfl⟩ | ⟨hf, hleg, rfl⟩
  · exact h
  · exact inv_setStatus (s := s) (c := false) h nofun (topologyError_fatal he).symm nofun
  · exact inv_setStatus h (fun _ => hleg) hf nofun

theorem inv_process {s t : State} (hc : exec .process s = .next t) (h : s.Inv) : t.Inv := by
  rcases exec_process_cases hc with ⟨-, rfl⟩ | ⟨hf, -, rfl⟩ | ⟨-, -, -, rfl⟩ | ⟨hp, rfl⟩
  · exact h
  · exact inv_setStatus h h.config hf nofun
  · exact inv_setStatus h h.config rfl nofun
  · exact inv_writeBack hp h

theorem inv_rejectIllegal {s t : State} (hc : rejectIllegal s = .next t) (h : s.Inv) : t.Inv := by
  rcases rejectIllegal_cases hc with ⟨-, rfl⟩ | ⟨hf, rfl⟩
  · exact h
  · exact inv_setStatus h h.config hf nofun

theorem inv_command {s t : State} {w : Word} (hc : command w s = .next t) (h : s.Inv) : t.Inv := by
  rcases command_cases hc with ⟨i, -, hi⟩ | ⟨-, hr⟩
  · cases i with
    | nop => cases hi; exact h
    | commit => exact inv_commit hi.symm h
    | process => exact inv_process hi.symm h
    | softReset => cases hi; exact inv_resetRegs h
  · exact inv_rejectIllegal hr.symm h

/-- Settles O59, by the cases of a step. -/
theorem everyStepKeepsTheInvariant : Obligations.EveryStepKeepsTheInvariant := by
  intro s t h hstep
  rcases step_cases hstep with ⟨-, rfl⟩ | ⟨_, _, _, rest, -, -, rfl⟩ | ⟨_, rest, _, -, hu, rfl⟩ |
    ⟨_, _, v, _, rest, -, hr, -, rfl⟩ | ⟨_, _, rest, -, -, rfl⟩ | ⟨rest, -, rfl⟩
  · exact h
  · exact inv_answer _ (inv_setPending rest h)
  · exact inv_answer _ (inv_command hu (inv_setPending rest h))
  · exact inv_answer _
      (inv_writeReg (s := s.setPending rest) v (target_inBuf_lt hr) (inv_setPending rest h))
  · exact inv_answer _ (inv_setPending rest h)
  · exact inv_hardReset (inv_setPending rest h)

end Sys2Proof.Machine
